-- ==== Sys2Proof/Word.lean ====
section
/-!
DEFINITION. The words of VARINT-CORE: 32-bit values (00_scope.md R9, VAL_W), bytes, slot byte-lengths, and the
group of four that every quad operation works on (00_scope.md R14).
-/

namespace Sys2Proof

/-- A 32-bit value: operands, results, addresses, command words (00_scope.md R9). -/
abbrev Word := BitVec 32

/-- One byte of buffer memory. -/
abbrev Byte := BitVec 8

/-- A slot's byte-length, 0 to 4 (00_scope.md R14; the fixed-slot scheme uses 1..4, the compact one 0..3). -/
abbrev Len := Fin 5

/-- Four things, one per slot of a quad; slot 1 is the first value (00_scope.md R14). -/
structure Quad (α : Type) where
  s1 : α
  s2 : α
  s3 : α
  s4 : α
  deriving DecidableEq, Repr

/-- The same function applied to each slot. -/
def Quad.map {α β : Type} (f : α → β) (q : Quad α) : Quad β := ⟨f q.s1, f q.s2, f q.s3, f q.s4⟩

/-- The slots in order, slot 1 first. -/
def Quad.toList {α : Type} (q : Quad α) : List α := [q.s1, q.s2, q.s3, q.s4]

end Sys2Proof
end

