-- ==== Sys2Proof/Syntax.lean ====
section
/-!
DEFINITION. The seventeen commands of VARINT-CORE, one constructor per row of opcode_table.json (30_encoding.md
R72).
-/

namespace Sys2Proof

/-- One command. Only the byte packer and unpacker carry an operand in the command word: NB, the byte count
(30_encoding.md R70, R73). Every other operand is an interface register. -/
inductive Instr where
  | blenF                      -- BLEN.F    0x01
  | blenC                      -- BLEN.C    0x02
  | venc                       -- VENC      0x10
  | vdec                       -- VDEC      0x11
  | vskip                      -- VSKIP     0x12
  | qsizeF                     -- QSIZE.F   0x20
  | hencF                      -- HENC.F    0x21
  | hdecF                      -- HDEC.F    0x22
  | qencF                      -- QENC.F    0x23
  | qdecF                      -- QDEC.F    0x24
  | qsizeC                     -- QSIZE.C   0x28
  | hencC                      -- HENC.C    0x29
  | hdecC                      -- HDEC.C    0x2A
  | qencC                      -- QENC.C    0x2B
  | qdecC                      -- QDEC.C    0x2C
  | lepack (nb : BitVec 3)     -- LEPACK    0x30
  | leunpack (nb : BitVec 3)   -- LEUNPACK  0x31
  deriving DecidableEq, Repr

end Sys2Proof
end

