-- ==== Sys2Proof/WellFormed.lean ====
section
/-!
DEFINITION. Which terms of Instr are commands: the byte count of LEPACK and LEUNPACK is at most 4 (30_encoding.md
R71, R73).
-/

namespace Sys2Proof

/-- The command is one that a legal command word can name (30_encoding.md R71). -/
def Instr.wf : Instr → Bool
  | .blenF => true
  | .blenC => true
  | .venc => true
  | .vdec => true
  | .vskip => true
  | .qsizeF => true
  | .hencF => true
  | .hdecF => true
  | .qencF => true
  | .qdecF => true
  | .qsizeC => true
  | .hencC => true
  | .hdecC => true
  | .qencC => true
  | .qdecC => true
  | .lepack nb => decide (nb.toNat ≤ 4)
  | .leunpack nb => decide (nb.toNat ≤ 4)

end Sys2Proof
end

