-- ==== Sys2Proof/Decode.lean ====
section
/-!
DEFINITION. Command words: the decoder, total on 32-bit words (30_encoding.md R70 to R73), the encoder
(R74), and the opcode table as rows of mask and pattern (opcode_table.json).
-/

namespace Sys2Proof

/-- Why a word is illegal (30_encoding.md R71). The block reports IllegalCommand for each. -/
inductive DecodeError where
  | reservedBits    -- RES is not zero
  | unknownOpcode   -- OPC is none of the seventeen codes
  | countNotZero    -- NB is not zero on a command other than LEPACK and LEUNPACK
  | countTooLarge   -- NB is above 4 on LEPACK or LEUNPACK
  deriving DecidableEq, Repr

/-- OPC, bits [7:0] (30_encoding.md R70). -/
def opcField (w : Word) : BitVec 8 := w.extractLsb' 0 8

/-- NB, bits [10:8] (30_encoding.md R70). -/
def nbField (w : Word) : BitVec 3 := w.extractLsb' 8 3

/-- RES, bits [31:11] (30_encoding.md R70). -/
def resField (w : Word) : BitVec 21 := w.extractLsb' 11 21

/-- A command that takes no byte count: NB must be zero (30_encoding.md R71). -/
def decodePlain (w : Word) (i : Instr) : Except DecodeError Instr :=
  if nbField w = 0 then .ok i else .error .countNotZero

/-- LEPACK and LEUNPACK: NB must be at most 4 (30_encoding.md R71, R73). -/
def decodeCounted (w : Word) (i : Instr) : Except DecodeError Instr :=
  if (nbField w).toNat ≤ 4 then .ok i else .error .countTooLarge

/-- The command whose code is `w`'s OPC (30_encoding.md R72), with NB checked. -/
def decodeOpc (w : Word) : Except DecodeError Instr :=
  match (opcField w).toNat with
  | 0x01 => decodePlain w .blenF
  | 0x02 => decodePlain w .blenC
  | 0x10 => decodePlain w .venc
  | 0x11 => decodePlain w .vdec
  | 0x12 => decodePlain w .vskip
  | 0x20 => decodePlain w .qsizeF
  | 0x21 => decodePlain w .hencF
  | 0x22 => decodePlain w .hdecF
  | 0x23 => decodePlain w .qencF
  | 0x24 => decodePlain w .qdecF
  | 0x28 => decodePlain w .qsizeC
  | 0x29 => decodePlain w .hencC
  | 0x2A => decodePlain w .hdecC
  | 0x2B => decodePlain w .qencC
  | 0x2C => decodePlain w .qdecC
  | 0x30 => decodeCounted w (.lepack (nbField w))
  | 0x31 => decodeCounted w (.leunpack (nbField w))
  | _ => .error .unknownOpcode

/-- The command a 32-bit word names, or why it is illegal (30_encoding.md R71). -/
def decode (w : Word) : Except DecodeError Instr :=
  if resField w = 0 then decodeOpc w else .error .reservedBits

/-- The code of a command (30_encoding.md R72). -/
def Instr.opc : Instr → BitVec 8
  | .blenF => 0x01
  | .blenC => 0x02
  | .venc => 0x10
  | .vdec => 0x11
  | .vskip => 0x12
  | .qsizeF => 0x20
  | .hencF => 0x21
  | .hdecF => 0x22
  | .qencF => 0x23
  | .qdecF => 0x24
  | .qsizeC => 0x28
  | .hencC => 0x29
  | .hdecC => 0x2A
  | .qencC => 0x2B
  | .qdecC => 0x2C
  | .lepack _ => 0x30
  | .leunpack _ => 0x31

/-- The byte count a command carries, zero where it carries none (30_encoding.md R70, R73). -/
def Instr.nb : Instr → BitVec 3
  | .blenF => 0
  | .blenC => 0
  | .venc => 0
  | .vdec => 0
  | .vskip => 0
  | .qsizeF => 0
  | .hencF => 0
  | .hdecF => 0
  | .qencF => 0
  | .qdecF => 0
  | .qsizeC => 0
  | .hencC => 0
  | .hdecC => 0
  | .qencC => 0
  | .qdecC => 0
  | .lepack nb => nb
  | .leunpack nb => nb

/-- The word a command stands for: (n << 8) | OPC (30_encoding.md R74). -/
def encode (i : Instr) : Word := (i.nb.setWidth 32 <<< 8) ||| i.opc.setWidth 32

/-- One row of opcode_table.json: the bits it fixes and their values. -/
structure OpcodeRow where
  mnemonic : String
  mask : Word
  pattern : Word
  deriving DecidableEq, Repr

/-- The word has the bits the row fixes. -/
def OpcodeRow.accepts (r : OpcodeRow) (w : Word) : Bool := w &&& r.mask == r.pattern

/-- The rows of the command's own opcode (opcode_table.json: mask and match). -/
def Instr.row : Instr → OpcodeRow
  | .blenF => ⟨"BLEN.F", 0xFFFFFFFF, 0x00000001⟩
  | .blenC => ⟨"BLEN.C", 0xFFFFFFFF, 0x00000002⟩
  | .venc => ⟨"VENC", 0xFFFFFFFF, 0x00000010⟩
  | .vdec => ⟨"VDEC", 0xFFFFFFFF, 0x00000011⟩
  | .vskip => ⟨"VSKIP", 0xFFFFFFFF, 0x00000012⟩
  | .qsizeF => ⟨"QSIZE.F", 0xFFFFFFFF, 0x00000020⟩
  | .hencF => ⟨"HENC.F", 0xFFFFFFFF, 0x00000021⟩
  | .hdecF => ⟨"HDEC.F", 0xFFFFFFFF, 0x00000022⟩
  | .qencF => ⟨"QENC.F", 0xFFFFFFFF, 0x00000023⟩
  | .qdecF => ⟨"QDEC.F", 0xFFFFFFFF, 0x00000024⟩
  | .qsizeC => ⟨"QSIZE.C", 0xFFFFFFFF, 0x00000028⟩
  | .hencC => ⟨"HENC.C", 0xFFFFFFFF, 0x00000029⟩
  | .hdecC => ⟨"HDEC.C", 0xFFFFFFFF, 0x0000002A⟩
  | .qencC => ⟨"QENC.C", 0xFFFFFFFF, 0x0000002B⟩
  | .qdecC => ⟨"QDEC.C", 0xFFFFFFFF, 0x0000002C⟩
  | .lepack _ => ⟨"LEPACK", 0xFFFFF8FF, 0x00000030⟩
  | .leunpack _ => ⟨"LEUNPACK", 0xFFFFF8FF, 0x00000031⟩

/-- One command of each row, in the table's order (the packers with byte count 0). -/
def commands : List Instr :=
  [.blenF, .blenC, .venc, .vdec, .vskip, .qsizeF, .hencF, .hdecF, .qencF, .qdecF, .qsizeC, .hencC, .hdecC, .qencC,
   .qdecC, .lepack 0, .leunpack 0]

/-- opcode_table.json, row by row. -/
def opcodeTable : List OpcodeRow := commands.map Instr.row

/-- The host's view of the decoder: the command in a row's bits, as opcode_table.json numbers them. A command word
is one 32-bit register write, so it has no byte order; bits above `nbits` are zero (log 22). -/
def decodeTableWord (nbits w : Nat) : Option Instr := (decode (BitVec.ofNat 32 (w % 2 ^ nbits))).toOption

end Sys2Proof
end

