-- ==== Sys2Proof/Config.lean ====
section
/-!
DEFINITION. The two parameters a model of VARINT-CORE takes (00_scope.md R9) and its one free value. The
parameters stand in State's field `cfg`, which no step changes, so what is proved of all states holds for every
choice of them (log 1).
-/

namespace Sys2Proof

/-- VDEC_OVERLONG: what VDEC returns for a sequence whose groups exceed 32 bits (42_varint.md R112). -/
inductive Overlong where
  | wrap32  -- the low 32 bits of the concatenated groups (the spec's default)
  | any     -- a free 32-bit value
  deriving DecidableEq, Repr

/-- The parameters of one block (00_scope.md R9). -/
structure Config where
  /-- ADDR_W, the width of a buffer address. At most 32: CUR and LEN are 32-bit registers (10_state.md R21, R24). -/
  addrW : Fin 33
  /-- VDEC_OVERLONG. -/
  vdecOverlong : Overlong
  deriving DecidableEq, Repr

/-- The values the spec gives the parameters (00_scope.md R9): ADDR_W = 32, VDEC_OVERLONG = wrap32. -/
def Config.default : Config := { addrW := 32, vdecOverlong := .wrap32 }

/-- FREE VALUE (log 9): what VDEC returns for an over-long sequence under VDEC_OVERLONG = any, applied to what the
command depends on (10_state.md R36): CUR, LEN and the bytes of the sequence. It has no body. -/
opaque Config.overlongValue (cur len : Nat) (sequence : List Byte) : Word

end Sys2Proof
end

