-- ==== Sys2Proof/Machine/Memory.lean ====
section
/-!
DEFINITION. Buffer memory (20_memory.md R50): a list of address and byte in one canonical form, addresses strictly
rising and no entry equal to what an unlisted address reads as.
-/

namespace Sys2Proof.Machine

/-- Buffer memory. -/
abbrev Memory := List Host.Cell

/-- DESIGN CHOICE (log 2), unsafe: what an unlisted byte of buffer memory reads as. The spec leaves buffer memory at
reset to the host (10_state.md R37); its test vectors start from zero (95_test_vectors.md). -/
def unlistedByte : Byte := 0x00

/-- The byte at an address. -/
def Memory.read : Memory → Nat → Byte
  | [], _ => unlistedByte
  | (k, b) :: m, a => if k = a then b else Memory.read m a

/-- The memory without any entry for the address. -/
def Memory.without (m : Memory) (a : Nat) : Memory := m.filter (fun c => c.1 != a)

/-- The entry put before the first entry of a greater address. -/
def Memory.put (a : Nat) (b : Byte) : Memory → Memory
  | [] => [(a, b)]
  | (k, c) :: m => if a < k then (a, b) :: (k, c) :: m else (k, c) :: Memory.put a b m

/-- One byte written. Writing what an unlisted address reads as removes the entry, so that equal memories are equal
lists. -/
def Memory.write (m : Memory) (a : Nat) (b : Byte) : Memory :=
  if b = unlistedByte then m.without a else Memory.put a b (m.without a)

/-- The canonical form: addresses strictly rising, no entry that reads as an unlisted one. -/
def Memory.wf : Memory → Bool
  | [] => true
  | (k, b) :: m => b != unlistedByte && m.all (fun c => decide (k < c.1)) && Memory.wf m

/-- Every listed address is below `size` (20_memory.md R50: 2^ADDR_W bytes). -/
def Memory.below (size : Nat) (m : Memory) : Bool := m.all (fun c => decide (c.1 < size))

/-- The bytes written one after the other at offsets `k`, `k + 1`, … from `base`, addresses modulo `size`
(20_memory.md R53, R55). -/
def Memory.storeFrom (size base : Nat) : Nat → List Byte → Memory → Memory
  | _, [], m => m
  | k, b :: bs, m => Memory.storeFrom size base (k + 1) bs (m.write ((base + k) % size) b)

end Sys2Proof.Machine
end

