-- ==== Sys2Proof/Machine/Rom.lean ====
section
/-!
DEFINITION. The contents of the read-only tables: ROM_F (10_state.md R30), ROM_C (R31) and MASK (R32), and the
physical word of a decode-table entry (R33). Each table is an array in State; these are the contents it holds from
reset on.
-/

namespace Sys2Proof.Machine

/-- The 2-bit field of a header byte `h` whose lower bit is `lo`. -/
def headerField (h : Byte) (lo : Nat) : BitVec 2 := h.extractLsb' lo 2

/-- A field of a fixed-slot header gives length field + 1 (10_state.md R30). -/
def lenOfFieldF (f : BitVec 2) : Len := ⟨f.toNat + 1, by have := f.isLt; omega⟩

/-- A field of a compact header is the length itself (10_state.md R31). -/
def lenOfFieldC (f : BitVec 2) : Len := ⟨f.toNat, by have := f.isLt; omega⟩

/-- The four fields of a header byte, slot 1 in the most significant position (30_encoding.md R83). -/
def headerFields (h : Byte) : Quad (BitVec 2) :=
  ⟨headerField h 6, headerField h 4, headerField h 2, headerField h 0⟩

/-- The entry of ROM_F for a header byte (10_state.md R30). -/
def entryF (h : Byte) : Quad Len := (headerFields h).map lenOfFieldF

/-- The entry of ROM_C for a header byte (10_state.md R31). -/
def entryC (h : Byte) : Quad Len := (headerFields h).map lenOfFieldC

/-- The 256 entries of a decode table, header byte 0 first. -/
def tableOf (entry : Byte → Quad Len) : Vector (Quad Len) 256 :=
  ⟨((List.range 256).map fun h => entry (BitVec.ofNat 8 h)).toArray, by simp⟩

/-- ROM_F (10_state.md R30). -/
def romFContents : Vector (Quad Len) 256 := tableOf entryF

/-- ROM_C (10_state.md R31). -/
def romCContents : Vector (Quad Len) 256 := tableOf entryC

/-- MASK: MASK[n] = 2^(8n) - 1 for n in 0..4 (10_state.md R32). -/
def maskContents : Vector Word 5 := #v[0x00000000, 0x000000FF, 0x0000FFFF, 0x00FFFFFF, 0xFFFFFFFF]

/-- The 32-bit word a decode-table entry is stored as: the length of slot i + 1 in byte i (10_state.md R33). The host
cannot observe it. -/
def entryWord (l : Quad Len) : Word :=
  BitVec.ofNat 8 l.s4.val ++ BitVec.ofNat 8 l.s3.val ++ BitVec.ofNat 8 l.s2.val ++ BitVec.ofNat 8 l.s1.val

end Sys2Proof.Machine
end

