-- ==== Sys2Proof/Machine/State.lean ====
section
/-!
DEFINITION. The state of one VARINT-CORE block (10_state.md R20) with the host's side of its interface, the reasons
a step can stop, and the state after reset (R37).
-/

namespace Sys2Proof.Machine

/-- The completion codes a command can end with (60_exceptions.md R201). Codes 5, 6 and 7 are never produced. -/
inductive Completion where
  | ok                  -- 0
  | valueOutOfRange     -- 1
  | truncatedInput      -- 2
  | insufficientBuffer  -- 3
  | illegalCommand      -- 4
  deriving DecidableEq, Repr

/-- STATUS (10_state.md R23): CODE of the most recent command, and STICKY. The reserved bits read 0 and ignore
writes, so they hold nothing (log 14). -/
structure Status where
  code : Completion
  sticky : Bool
  deriving DecidableEq, Repr

/-- The size of a host access to the register window (10_state.md R29). -/
inductive AccessSize where
  | byte
  | half
  | word
  deriving DecidableEq, Repr

/-- One access of the host (00_scope.md R6, R7; 70_reset_and_hazards.md R230). A register write of CMD starts a
command. -/
inductive HostAccess where
  | regRead (size : AccessSize) (offset : BitVec 8)
  | regWrite (size : AccessSize) (offset : BitVec 8) (w : Word)
  | memRead (address : Nat)
  | memWrite (address : Nat) (b : Byte)
  | reset
  deriving DecidableEq, Repr

/-- What a host read returned. -/
inductive HostData where
  | word (w : Word)
  | byte (b : Byte)
  deriving DecidableEq, Repr

/-- The block and the host's side of its interface. -/
structure State where
  /-- The parameters (00_scope.md R9); no step changes them (log 1). -/
  cfg : Config
  /-- STATUS (10_state.md R23). -/
  status : Status
  /-- CUR (10_state.md R24). -/
  cur : Word
  /-- LEN (10_state.md R25). -/
  len : Word
  /-- CNT (10_state.md R26). -/
  cnt : Word
  /-- V0 (10_state.md R27). -/
  v0 : Word
  /-- V1 (10_state.md R27). -/
  v1 : Word
  /-- V2 (10_state.md R27). -/
  v2 : Word
  /-- V3 (10_state.md R27). -/
  v3 : Word
  /-- R0 (10_state.md R28). -/
  r0 : Word
  /-- R1 (10_state.md R28). -/
  r1 : Word
  /-- R2 (10_state.md R28). -/
  r2 : Word
  /-- R3 (10_state.md R28). -/
  r3 : Word
  /-- ROM_F (10_state.md R30), read-only. -/
  romF : Vector (Quad Len) 256
  /-- ROM_C (10_state.md R31), read-only. -/
  romC : Vector (Quad Len) 256
  /-- MASK (10_state.md R32), read-only. -/
  maskRom : Vector Word 5
  /-- Buffer memory, the host's (20_memory.md R50). -/
  mem : Memory
  /-- The model's own: the host accesses still to come, oldest first (log 3). -/
  pending : List HostAccess
  /-- The model's own: what the host's last read returned (log 8). -/
  lastRead : Option HostData
  deriving DecidableEq, Repr

/-- Why the machine stops with a fault. -/
inductive Fault where
  /-- Raised by a host access to a buffer address at or above 2^ADDR_W, which does not exist (20_memory.md R50). Safe:
  the model stops where a platform might wrap (log 6). No command raises it. -/
  | bufferAddressOutOfRange (address : Nat)
  deriving DecidableEq, Repr

/-- Why the model gives a step no meaning. -/
inductive Refusal where
  /-- An instruction that has no meaning yet; `exec` refuses it by name. Safe. No instruction is refused so now. -/
  | notModelled (mnemonic : String)
  /-- Raised by a host access to the register window that is not an aligned 32-bit word: 10_state.md R29 says a model
  refuses it. Safe (log 7). No command raises it. -/
  | registerAccessNotAlignedWord (size : AccessSize) (offset : BitVec 8)
  deriving DecidableEq, Repr

/-- The block right after reset (10_state.md R37), with the spec's default parameters (00_scope.md R9), nothing
listed in buffer memory (log 2), and a host that has done nothing yet (log 3, log 8). -/
def State.reset : State where
  cfg := Config.default
  status := { code := .ok, sticky := false }
  cur := 0
  len := 0
  cnt := 0
  v0 := 0
  v1 := 0
  v2 := 0
  v3 := 0
  r0 := 0
  r1 := 0
  r2 := 0
  r3 := 0
  romF := romFContents
  romC := romCContents
  maskRom := maskContents
  mem := []
  pending := []
  lastRead := none

end Sys2Proof.Machine
end

