-- ==== Sys2Proof/Machine/Flags.lean ====
section
/-!
DEFINITION. STATUS: the completion codes as numbers (60_exceptions.md R201), what a completion does to it (R203), what
the host reads and what its write does (10_state.md R23). The block has no other flag (R35).
-/

namespace Sys2Proof.Machine

/-- The CODE value of a completion (60_exceptions.md R201). -/
def Completion.bits : Completion → BitVec 3
  | .ok => 0
  | .valueOutOfRange => 1
  | .truncatedInput => 2
  | .insufficientBuffer => 3
  | .illegalCommand => 4

/-- STATUS after a command that ends with `c`: CODE is `c`, and STICKY is set unless `c` is OK (60_exceptions.md
R203). -/
def Status.complete (st : Status) (c : Completion) : Status :=
  { code := c, sticky := st.sticky || c != .ok }

/-- The word a host read of STATUS returns: CODE in [2:0], STICKY in [8], every other bit 0 (10_state.md R23). -/
def Status.toWord (st : Status) : Word := 0#23 ++ BitVec.ofBool st.sticky ++ 0#5 ++ st.code.bits

/-- STATUS after a host write of `w`: bit 8 = 1 clears STICKY, everything else is ignored (10_state.md R23). -/
def Status.hostWrite (st : Status) (w : Word) : Status := { st with sticky := st.sticky && !w.getLsbD 8 }

end Sys2Proof.Machine
end

