-- ==== Sys2Proof/Machine/Ops.lean ====
section
/-!
DEFINITION. The shared operations: completing a command and raising (00_scope.md R12, 60_exceptions.md R203), the buffer
window and its accesses (20_memory.md R52 to R58), and the interface registers as the host sees them (10_state.md R21
to R29).
-/

namespace Sys2Proof.Machine

/-- What a meaning answers. -/
abbrev Answer := Host.Outcome State Fault Refusal

/-! ### Completion -/

/-- The command ends with code `c`: STATUS, and nothing else (60_exceptions.md R203). With an error code this is
`raise` (00_scope.md R12). There is nothing to return from (60_exceptions.md R206). -/
def State.complete (s : State) (c : Completion) : State := { s with status := s.status.complete c }

/-- A whole command, run from `s`: the body either reaches its end with the state that holds all its writes, which are
committed at once with status OK, or raises, and then every write it would have made is discarded (00_scope.md
R12). -/
def State.finish (s : State) (body : Except Completion State) : Answer :=
  match body with
  | .ok t => .next (t.complete .ok)
  | .error e => .next (s.complete e)

/-! ### The buffer window -/

/-- The size of buffer memory, 2^ADDR_W (20_memory.md R50). -/
def State.memSize (s : State) : Nat := 2 ^ s.cfg.addrW.val

/-- CUR: ADDR_W bits of the register are used and the others read 0 (10_state.md R24, log 19). -/
def State.curA (s : State) : Nat := s.cur.toNat % s.memSize

/-- LEN, ADDR_W bits wide (10_state.md R25, log 19). -/
def State.lenA (s : State) : Nat := s.len.toNat % s.memSize

/-- The address of offset `k` of the window (20_memory.md R55). -/
def State.windowAddr (s : State) (k : Nat) : Nat := (s.curA + k) % s.memSize

/-- The byte at offset `k` of the window: MemRead(x[CUR] + k, 1) (00_scope.md R11). -/
def State.windowByte (s : State) (k : Nat) : Byte := s.mem.read (s.windowAddr k)

/-- The `n` bytes from offset `k` on, in address order. -/
def State.windowBytes (s : State) (k n : Nat) : List Byte := (List.range n).map fun i => s.windowByte (k + i)

/-- Bytes in address order as a little-endian 32-bit value (20_memory.md R52). -/
def leValue : List Byte → Word
  | [] => 0
  | b :: bs => (leValue bs <<< 8) ||| b.setWidth 32

/-- The `n` low-order bytes of `v`, least significant first (20_memory.md R52): byte i is v[8i+7:8i]. -/
def leBytes (n : Nat) (v : Word) : List Byte := (List.range n).map fun i => v.extractLsb' (8 * i) 8

/-- MemRead(x[CUR] + k, n) (00_scope.md R11). -/
def State.memRead (s : State) (k n : Nat) : Word := leValue (s.windowBytes k n)

/-- Bytes stored from offset `k` of the window on: one MemWrite after another (00_scope.md R11). -/
def State.storeBytes (s : State) (k : Nat) (bs : List Byte) : State :=
  { s with mem := Memory.storeFrom s.memSize s.curA k bs s.mem }

/-- A memory command that moved `c` bytes: CNT, CUR and LEN (20_memory.md R58). -/
def State.moved (s : State) (c : Nat) : State :=
  { s with
    cnt := BitVec.ofNat 32 c
    cur := BitVec.ofNat 32 (s.windowAddr c)
    len := BitVec.ofNat 32 (s.lenA - c) }

/-- need(n): an encoder's bounds check (20_memory.md R56). -/
def State.need (s : State) (n : Nat) : Except Completion Unit :=
  if s.lenA < n then .error .insufficientBuffer else .ok ()

/-- have(n): a decoder's bounds check (20_memory.md R57). -/
def State.haveBytes (s : State) (n : Nat) : Except Completion Unit :=
  if 0 < n ∧ s.lenA = 0 then .error .insufficientBuffer
  else if s.lenA < n then .error .truncatedInput
  else .ok ()

/-! ### The interface registers -/

/-- An address truncated to ADDR_W bits, as a register holds it (10_state.md R24). -/
def State.truncAddr (s : State) (w : Word) : Word := BitVec.ofNat 32 (w.toNat % s.memSize)

/-- The word at a register offset, as a host read returns it (10_state.md R21): CMD and the reserved offsets read
0. -/
def State.readReg (s : State) (offset : BitVec 8) : Word :=
  match offset.toNat with
  | 0x04 => s.status.toWord
  | 0x08 => s.truncAddr s.cur
  | 0x0C => s.truncAddr s.len
  | 0x10 => s.cnt
  | 0x14 => s.v0
  | 0x18 => s.v1
  | 0x1C => s.v2
  | 0x20 => s.v3
  | 0x24 => s.r0
  | 0x28 => s.r1
  | 0x2C => s.r2
  | 0x30 => s.r3
  | _ => 0

/-- A host write of a register other than CMD (10_state.md R21): read-only registers and reserved offsets ignore it,
STATUS clears STICKY by 1 (R23), CUR and LEN keep ADDR_W bits (R24). -/
def State.writeReg (s : State) (offset : BitVec 8) (w : Word) : State :=
  match offset.toNat with
  | 0x04 => { s with status := s.status.hostWrite w }
  | 0x08 => { s with cur := s.truncAddr w }
  | 0x0C => { s with len := s.truncAddr w }
  | 0x14 => { s with v0 := w }
  | 0x18 => { s with v1 := w }
  | 0x1C => { s with v2 := w }
  | 0x20 => { s with v3 := w }
  | _ => s

/-- The reset input (70_reset_and_hazards.md R230): every interface register as 10_state.md R37 gives it; buffer memory,
the tables, the parameters and the host's side stay (log 18). -/
def State.resetRegisters (s : State) : State :=
  { s with
    status := { code := .ok, sticky := false }
    cur := 0, len := 0, cnt := 0
    v0 := 0, v1 := 0, v2 := 0, v3 := 0
    r0 := 0, r1 := 0, r2 := 0, r3 := 0 }

end Sys2Proof.Machine
end

