-- ==== Sys2Proof/Machine/Operands.lean ====
section
/-!
DEFINITION. The operand forms: the length functions (41_byte_length.md R100, R101; 42_varint.md R110), headers and
quads of the two schemes (43_quad_fixed.md R130 to R132; 44_quad_compact.md R150 to R152; 30_encoding.md R84, R85), the
canonical continuation-bit bytes (42_varint.md R111), the scan of a continuation-bit sequence (R112, R113), and the byte
unpacker (45_le_packer.md R171, R172).
-/

namespace Sys2Proof.Machine

/-! ### Length functions -/

/-- COMPACT_MAX, the largest value of the compact scheme (00_scope.md R9). -/
def compactMax : Nat := 0xFFFFFF

/-- blenF, the fixed-slot byte-length (41_byte_length.md R100). -/
def blenF (v : Word) : Len :=
  if v.toNat ≤ 0xFF then 1
  else if v.toNat ≤ 0xFFFF then 2
  else if v.toNat ≤ 0xFFFFFF then 3
  else 4

/-- blenC, the compact byte-length (41_byte_length.md R101); not defined above 0xFFFFFF, where this is `none`
(log 11). -/
def blenC (v : Word) : Option Len :=
  if compactMax < v.toNat then none
  else if v.toNat = 0 then some 0
  else if v.toNat ≤ 0xFF then some 1
  else if v.toNat ≤ 0xFFFF then some 2
  else some 3

/-- vlen, the byte count of the canonical continuation-bit encoding (42_varint.md R110). -/
def vlen (v : Word) : Nat :=
  if v.toNat ≤ 0x7F then 1
  else if v.toNat ≤ 0x3FFF then 2
  else if v.toNat ≤ 0x1FFFFF then 3
  else if v.toNat ≤ 0x0FFFFFFF then 4
  else 5

/-! ### Quads -/

/-- The operands v1..v4 of the quad commands (10_state.md R27). -/
def State.operands (s : State) : Quad Word := ⟨s.v0, s.v1, s.v2, s.v3⟩

/-- The slot lengths of a fixed-slot quad (43_quad_fixed.md R130). -/
def lensF (v : Quad Word) : Quad Len := v.map blenF

/-- rangeC and the slot lengths of a compact quad (44_quad_compact.md R150): ValueOutOfRange if any of the four values
exceeds 0xFFFFFF. -/
def lensC (v : Quad Word) : Except Completion (Quad Len) :=
  match blenC v.s1, blenC v.s2, blenC v.s3, blenC v.s4 with
  | some a, some b, some c, some d => .ok ⟨a, b, c, d⟩
  | _, _, _, _ => .error .valueOutOfRange

/-- The size of a quad: the header byte and the payloads (43_quad_fixed.md R131, 44_quad_compact.md R151). -/
def quadSize (l : Quad Len) : Nat := 1 + l.s1.val + l.s2.val + l.s3.val + l.s4.val

/-- The header accumulation, once per slot, slot 1 first (43_quad_fixed.md R132, 44_quad_compact.md R152). -/
def accumulateHeader (fields : List Nat) : Byte :=
  fields.foldl (fun h f => (h <<< 2) ||| BitVec.ofNat 8 f) 0

/-- hdrF: each field is the slot's length minus 1 (43_quad_fixed.md R132). -/
def hdrF (l : Quad Len) : Byte := accumulateHeader (l.toList.map fun n => n.val - 1)

/-- hdrC: each field is the slot's length (44_quad_compact.md R152). -/
def hdrC (l : Quad Len) : Byte := accumulateHeader (l.toList.map fun n => n.val)

/-- The bytes of a quad: its header, then the payloads of slots 1..4, each the slot's low-order bytes, little-endian,
with no padding (30_encoding.md R84, R85). -/
def quadBytes (h : Byte) (l : Quad Len) (v : Quad Word) : List Byte :=
  h :: (leBytes l.s1.val v.s1 ++ leBytes l.s2.val v.s2 ++ leBytes l.s3.val v.s3 ++ leBytes l.s4.val v.s4)

/-- The byte unpacker: MemRead(x[CUR] + j, n) & MASK[n] (45_le_packer.md R171, R172). -/
def State.unpack (s : State) (j : Nat) (n : Len) : Word := s.memRead j n.val &&& s.maskRom.get n

/-- The four payloads of a quad whose slot lengths are `l`, slot 1 at offset 1 (43_quad_fixed.md R137). -/
def State.unpackQuad (s : State) (l : Quad Len) : Quad Word :=
  ⟨s.unpack 1 l.s1,
   s.unpack (1 + l.s1.val) l.s2,
   s.unpack (1 + l.s1.val + l.s2.val) l.s3,
   s.unpack (1 + l.s1.val + l.s2.val + l.s3.val) l.s4⟩

/-- The result register R0 (10_state.md R28). -/
def State.setR0 (s : State) (w : Word) : State := { s with r0 := w }

/-- The result registers R0..R3 (10_state.md R28). -/
def State.setResults (s : State) (r : Quad Word) : State := { s with r0 := r.s1, r1 := r.s2, r2 := r.s3, r3 := r.s4 }

/-- Slot lengths as 32-bit results (43_quad_fixed.md R135). -/
def lenWords (l : Quad Len) : Quad Word := l.map fun n => BitVec.ofNat 32 n.val

/-- The body that both quad encoders share: check the space, write the quad's bytes, move the window
(43_quad_fixed.md R136, 44_quad_compact.md R156). -/
def State.encodeQuad (s : State) (h : Byte) (l : Quad Len) : Except Completion State := do
  s.need (quadSize l)
  .ok ((s.storeBytes 0 (quadBytes h l s.operands)).moved (quadSize l))

/-- The body that both quad decoders share, over the decode table of the scheme: read the header, look up its lengths,
check the window, read the payloads (43_quad_fixed.md R137, 44_quad_compact.md R157). -/
def State.decodeQuad (s : State) (rom : Vector (Quad Len) 256) : Except Completion State := do
  s.haveBytes 1
  let l := rom.get (s.windowByte 0).toFin
  s.haveBytes (quadSize l)
  .ok ((s.setResults (s.unpackQuad l)).moved (quadSize l))

/-! ### Continuation-bit sequences -/

/-- Byte i of the canonical encoding of `v` in `n` bytes (42_varint.md R111): the continuation bit, then group
n - 1 - i of `v`. -/
def canonicalByte (v : Word) (n i : Nat) : Byte :=
  BitVec.ofBool (decide (i < n - 1)) ++ (v >>> (7 * (n - 1 - i))).extractLsb' 0 7

/-- The canonical encoding of `v`, most significant group first (42_varint.md R111). -/
def canonicalBytes (v : Word) : List Byte := (List.range (vlen v)).map (canonicalByte v (vlen v))

/-- Bit 7 of a byte: more bytes follow (30_encoding.md R80). -/
def continues (b : Byte) : Bool := b.getLsbD 7

/-- Group accumulation in 32 bits (42_varint.md R112). -/
def accumulateGroup (acc : Word) (b : Byte) : Word := (acc <<< 7) ||| (b.extractLsb' 0 7).setWidth 32

/-- The loop of scan(), at offset `k` with accumulator `acc` and `left` bytes of the window left (42_varint.md R113):
the value and the byte count, or `none` when the window ends first. -/
def State.scanFrom (s : State) (k : Nat) (acc : Word) : (left : Nat) → Option (Word × Nat)
  | 0 => none
  | left + 1 =>
    let b := s.windowByte k
    if continues b then s.scanFrom (k + 1) (accumulateGroup acc b) left else some (accumulateGroup acc b, k + 1)

/-- scan() (42_varint.md R113): the accumulated value and the byte count. -/
def State.scan (s : State) : Except Completion (Word × Nat) :=
  if s.lenA = 0 then .error .insufficientBuffer
  else
    match s.scanFrom 0 0 s.lenA with
    | some r => .ok r
    | none => .error .truncatedInput

/-- The groups of the `n`-byte sequence exceed 32 bits: more than 5 bytes, or 5 bytes with b_0[6:4] not zero
(42_varint.md R112, log 10). -/
def State.overlong (s : State) (n : Nat) : Bool :=
  decide (5 < n) || (n == 5 && (s.windowByte 0).extractLsb' 4 3 != 0)

/-- The value VDEC returns for an `n`-byte sequence whose accumulated value is `acc`: `acc`, but a free value for an
over-long sequence under VDEC_OVERLONG = any (42_varint.md R112, log 9). -/
def State.decodedValue (s : State) (acc : Word) (n : Nat) : Word :=
  match s.cfg.vdecOverlong with
  | .wrap32 => acc
  | .any => if s.overlong n then Config.overlongValue s.curA s.lenA (s.windowBytes 0 n) else acc

/-! ### The byte count of the packer -/

/-- NB as a byte count: 0..4, and IllegalCommand above (30_encoding.md R71, R73; log 16). -/
def byteCount (nb : BitVec 3) : Except Completion Len :=
  if h : nb.toNat < 5 then .ok ⟨nb.toNat, h⟩ else .error .illegalCommand

end Sys2Proof.Machine
end

