-- ==== Sys2Proof/Machine/ByteLength.lean ====
section
/-! DEFINITION. The byte-length calculator: BLEN.F (41_byte_length.md R102) and BLEN.C (R103). -/

namespace Sys2Proof.Machine

/-- BLEN.F (41_byte_length.md R102). -/
def execBlenF (s : State) : Answer :=
  s.finish (.ok (s.setR0 (BitVec.ofNat 32 (blenF s.v0).val)))

/-- BLEN.C (41_byte_length.md R103): ValueOutOfRange above 0xFFFFFF. -/
def execBlenC (s : State) : Answer :=
  s.finish
    (match blenC s.v0 with
     | some n => .ok (s.setR0 (BitVec.ofNat 32 n.val))
     | none => .error .valueOutOfRange)

end Sys2Proof.Machine
end

