-- ==== Sys2Proof/Machine/Packer.lean ====
section
/-! DEFINITION. The little-endian byte packer LEPACK (45_le_packer.md R170) and unpacker LEUNPACK (R171). -/

namespace Sys2Proof.Machine

/-- LEPACK n (45_le_packer.md R170). -/
def execLepack (nb : BitVec 3) (s : State) : Answer :=
  s.finish do
    let n ← byteCount nb
    s.need n.val
    .ok ((s.storeBytes 0 (leBytes n.val s.v0)).moved n.val)

/-- LEUNPACK n (45_le_packer.md R171). -/
def execLeunpack (nb : BitVec 3) (s : State) : Answer :=
  s.finish do
    let n ← byteCount nb
    s.haveBytes n.val
    .ok ((s.setR0 (s.unpack 0 n)).moved n.val)

end Sys2Proof.Machine
end

