-- ==== Sys2Proof/Machine/QuadCompact.lean ====
section
/-!
DEFINITION. The compact quad codec: QSIZE.C (44_quad_compact.md R153), HENC.C (R154), HDEC.C (R155), QENC.C (R156) and
QDEC.C (R157). Each command that takes values checks their range before anything else (R150).
-/

namespace Sys2Proof.Machine

/-- QSIZE.C (44_quad_compact.md R153). -/
def execQsizeC (s : State) : Answer :=
  s.finish do
    let l ← lensC s.operands
    .ok (s.setR0 (BitVec.ofNat 32 (quadSize l)))

/-- HENC.C (44_quad_compact.md R154). -/
def execHencC (s : State) : Answer :=
  s.finish do
    let l ← lensC s.operands
    .ok (s.setR0 ((hdrC l).setWidth 32))

/-- HDEC.C (44_quad_compact.md R155): the header is V0[7:0], looked up in ROM_C. -/
def execHdecC (s : State) : Answer :=
  s.finish (.ok (s.setResults (lenWords (s.romC.get (s.v0.extractLsb' 0 8).toFin))))

/-- QENC.C (44_quad_compact.md R156). -/
def execQencC (s : State) : Answer :=
  s.finish do
    let l ← lensC s.operands
    s.encodeQuad (hdrC l) l

/-- QDEC.C (44_quad_compact.md R157). -/
def execQdecC (s : State) : Answer :=
  s.finish (s.decodeQuad s.romC)

end Sys2Proof.Machine
end

