-- ==== Sys2Proof/Machine/QuadFixed.lean ====
section
/-!
DEFINITION. The fixed-slot quad codec: QSIZE.F (43_quad_fixed.md R133), HENC.F (R134), HDEC.F (R135), QENC.F (R136)
and QDEC.F (R137).
-/

namespace Sys2Proof.Machine

/-- QSIZE.F (43_quad_fixed.md R133). -/
def execQsizeF (s : State) : Answer :=
  s.finish (.ok (s.setR0 (BitVec.ofNat 32 (quadSize (lensF s.operands)))))

/-- HENC.F (43_quad_fixed.md R134). -/
def execHencF (s : State) : Answer :=
  s.finish (.ok (s.setR0 ((hdrF (lensF s.operands)).setWidth 32)))

/-- HDEC.F (43_quad_fixed.md R135): the header is V0[7:0], looked up in ROM_F. -/
def execHdecF (s : State) : Answer :=
  s.finish (.ok (s.setResults (lenWords (s.romF.get (s.v0.extractLsb' 0 8).toFin))))

/-- QENC.F (43_quad_fixed.md R136). -/
def execQencF (s : State) : Answer :=
  s.finish (s.encodeQuad (hdrF (lensF s.operands)) (lensF s.operands))

/-- QDEC.F (43_quad_fixed.md R137). -/
def execQdecF (s : State) : Answer :=
  s.finish (s.decodeQuad s.romF)

end Sys2Proof.Machine
end

