-- ==== Sys2Proof/Machine/Varint.lean ====
section
/-! DEFINITION. The continuation-bit codec: VENC (42_varint.md R114), VDEC (R115) and VSKIP (R116). -/

namespace Sys2Proof.Machine

/-- VENC (42_varint.md R114). -/
def execVenc (s : State) : Answer :=
  s.finish do
    s.need (vlen s.v0)
    .ok ((s.storeBytes 0 (canonicalBytes s.v0)).moved (vlen s.v0))

/-- VDEC (42_varint.md R115). -/
def execVdec (s : State) : Answer :=
  s.finish do
    let (acc, k) ← s.scan
    .ok ((s.setR0 (s.decodedValue acc k)).moved k)

/-- VSKIP (42_varint.md R116): the value is discarded, R0 is left alone. -/
def execVskip (s : State) : Answer :=
  s.finish do
    let (_, k) ← s.scan
    .ok (s.moved k)

end Sys2Proof.Machine
end

