-- ==== Sys2Proof/Machine/Dispatch.lean ====
section
/-! DEFINITION. exec: each command's meaning, one arm per constructor of Instr. -/

namespace Sys2Proof.Machine

def exec (i : Instr) (s : State) : Host.Outcome State Fault Refusal :=
  match i with
  -- the byte-length calculator
  | .blenF => Sys2Proof.Machine.execBlenF s
  | .blenC => Sys2Proof.Machine.execBlenC s
  -- the continuation-bit codec
  | .venc => Sys2Proof.Machine.execVenc s
  | .vdec => Sys2Proof.Machine.execVdec s
  | .vskip => Sys2Proof.Machine.execVskip s
  -- the fixed-slot quad codec
  | .qsizeF => Sys2Proof.Machine.execQsizeF s
  | .hencF => Sys2Proof.Machine.execHencF s
  | .hdecF => Sys2Proof.Machine.execHdecF s
  | .qencF => Sys2Proof.Machine.execQencF s
  | .qdecF => Sys2Proof.Machine.execQdecF s
  -- the compact quad codec
  | .qsizeC => Sys2Proof.Machine.execQsizeC s
  | .hencC => Sys2Proof.Machine.execHencC s
  | .hdecC => Sys2Proof.Machine.execHdecC s
  | .qencC => Sys2Proof.Machine.execQencC s
  | .qdecC => Sys2Proof.Machine.execQdecC s
  -- the byte packer and unpacker
  | .lepack nb => Sys2Proof.Machine.execLepack nb s
  | .leunpack nb => Sys2Proof.Machine.execLeunpack nb s

end Sys2Proof.Machine
end

