-- ==== Sys2Proof/Machine/HostPort.lean ====
section
/-!
DEFINITION. The host's accesses (00_scope.md R6, R7): register reads and writes, command writes, buffer memory reads and
writes, and the reset input.
-/

namespace Sys2Proof.Machine

/-- A host write of `w` to CMD (10_state.md R22): the command is decoded and run whole; an illegal word completes with
IllegalCommand and does nothing else (30_encoding.md R71). -/
def runCommand (w : Word) (s : State) : Answer :=
  match decode w with
  | .ok i => exec i s
  | .error _ => .next (s.complete .illegalCommand)

/-- The access is an aligned 32-bit word (10_state.md R29). -/
def alignedWord (size : AccessSize) (offset : BitVec 8) : Bool := size == .word && offset.toNat % 4 == 0

/-- A host read of the register window (10_state.md R21, R29). -/
def hostRegRead (size : AccessSize) (offset : BitVec 8) (s : State) : Answer :=
  if alignedWord size offset then .next { s with lastRead := some (.word (s.readReg offset)) }
  else .refused (.registerAccessNotAlignedWord size offset)

/-- A host write to the register window (10_state.md R21, R22, R29): offset 0x00 is CMD. -/
def hostRegWrite (size : AccessSize) (offset : BitVec 8) (w : Word) (s : State) : Answer :=
  if alignedWord size offset then
    if offset.toNat = 0x00 then runCommand w s else .next (s.writeReg offset w)
  else .refused (.registerAccessNotAlignedWord size offset)

/-- A host read of one byte of buffer memory (20_memory.md R50, log 5, log 6). -/
def hostMemRead (address : Nat) (s : State) : Answer :=
  if address < s.memSize then .next { s with lastRead := some (.byte (s.mem.read address)) }
  else .fault (.bufferAddressOutOfRange address)

/-- A host write of one byte of buffer memory (20_memory.md R50, log 5, log 6). -/
def hostMemWrite (address : Nat) (b : Byte) (s : State) : Answer :=
  if address < s.memSize then .next { s with mem := s.mem.write address b }
  else .fault (.bufferAddressOutOfRange address)

/-- One host access. -/
def hostAccess (a : HostAccess) (s : State) : Answer :=
  match a with
  | .regRead size offset => hostRegRead size offset s
  | .regWrite size offset w => hostRegWrite size offset w s
  | .memRead address => hostMemRead address s
  | .memWrite address b => hostMemWrite address b s
  | .reset => .next s.resetRegisters

/-- The step: the host's next access is made, whole (20_memory.md R63). With none left the block is idle
(70_reset_and_hazards.md R231, log 4). -/
def hostStep (s : State) : Answer :=
  match s.pending with
  | [] => .next s
  | a :: rest => hostAccess a { s with pending := rest }

/-- The host's next access is a write of `w` to CMD (log 3, log 22). -/
def State.withCommandWord (s : State) (w : Word) : State :=
  { s with pending := .regWrite .word 0x00 w :: s.pending }

end Sys2Proof.Machine
end

