-- ==== Sys2Proof/Machine/Step.lean ====
section
/-! DEFINITION. One step of the machine, and the state whose next step runs a given command word. -/

namespace Sys2Proof.Machine

/-- One step: the host's next access (00_scope.md R7). -/
def step (s : State) : Host.Outcome State Fault Refusal := hostStep s

/-- The state whose very next step runs the command word in the low `nbits` bits of `w`: the host's next access writes
it to CMD, the one way to start a command (10_state.md R22, log 22). -/
def State.withFetchWord (s : State) (nbits w : Nat) : State := s.withCommandWord (BitVec.ofNat 32 (w % 2 ^ nbits))

end Sys2Proof.Machine
end

