-- ==== Sys2Proof/Safety.lean ====
section
/-!
DEFINITION. The terms claims use: the tables hold their fixed contents, the invariant of the machine, two states that
no command can tell apart, the commands that read and that write memory, the window as a set of addresses, and what is
observed of a finished run.
-/

namespace Sys2Proof

/-- The encoders: the commands that write buffer memory (20_memory.md R61). -/
def Instr.encodes : Instr → Bool
  | .venc | .qencF | .qencC | .lepack _ => true
  | .blenF | .blenC | .vdec | .vskip | .qsizeF | .hencF | .hdecF | .qdecF | .qsizeC | .hencC | .hdecC | .qdecC
  | .leunpack _ => false

/-- The decoders: the commands that read buffer memory (20_memory.md R61). -/
def Instr.decodes : Instr → Bool
  | .vdec | .vskip | .qdecF | .qdecC | .leunpack _ => true
  | .blenF | .blenC | .venc | .qsizeF | .hencF | .hdecF | .qencF | .qsizeC | .hencC | .hdecC | .qencC
  | .lepack _ => false

end Sys2Proof

namespace Sys2Proof.Machine

/-- ROM_F, ROM_C and MASK hold the contents of 10_state.md R30, R31 and R32. -/
abbrev State.tablesFixed (s : State) : Prop :=
  s.romF = romFContents ∧ s.romC = romCContents ∧ s.maskRom = maskContents

/-- The invariant: the tables are as fixed, CUR and LEN use ADDR_W bits only (10_state.md R24, R25), and buffer memory is in
canonical form and holds 2^ADDR_W bytes at most (20_memory.md R50). -/
abbrev State.Inv (s : State) : Prop :=
  s.tablesFixed ∧ s.cur.toNat < s.memSize ∧ s.len.toNat < s.memSize ∧ s.mem.wf = true ∧ s.mem.below s.memSize = true

/-- The address is in the buffer window (20_memory.md R55). -/
def State.inWindow (s : State) (a : Nat) : Prop := ∃ k, k < s.lenA ∧ a = s.windowAddr k

/-- The two states agree on everything a command's outcome may depend on (10_state.md R36): all but the bytes of
buffer memory outside the window. -/
def State.sameForCommands (s t : State) : Prop :=
  { s with mem := [] } = { t with mem := [] } ∧ ∀ k, k < s.lenA → s.windowByte k = t.windowByte k

/-- The run is finished: the host has no access left (70_reset_and_hazards.md R239). -/
def State.finished (s : State) : Bool := s.pending.isEmpty

/-- No command has failed since STICKY was last cleared (60_exceptions.md R203). -/
def State.noFailure (s : State) : Bool := !s.status.sticky

/-- What is observed of a finished run: the interface registers (as the host reads them) and buffer memory
(70_reset_and_hazards.md R239). -/
def State.observe (s : State) : List Word × Memory :=
  (([0x00, 0x04, 0x08, 0x0C, 0x10, 0x14, 0x18, 0x1C, 0x20, 0x24, 0x28, 0x2C, 0x30] : List (BitVec 8)).map s.readReg, s.mem)

end Sys2Proof.Machine
end

