-- ==== Sys2Proof/Certificates/Slice0/Obligations.lean ====
section
/-!
DEFINITION. The statements about VARINT-CORE, from the numbered rules of spec/. The words they use first: the spec's own
arithmetic said again over natural numbers, apart from the model's functions, so that a statement does not repeat the
definition it is about.
-/

namespace Sys2Proof.Statements

open Sys2Proof.Machine

/-- 41_byte_length.md R100, on numbers. -/
def byteLenF (v : Nat) : Nat :=
  if v ≤ 0xFF then 1 else if v ≤ 0xFFFF then 2 else if v ≤ 0xFFFFFF then 3 else 4

/-- 41_byte_length.md R101, on numbers up to 0xFFFFFF. -/
def byteLenC (v : Nat) : Nat :=
  if v = 0 then 0 else if v ≤ 0xFF then 1 else if v ≤ 0xFFFF then 2 else 3

/-- One number for each of V0..V3. -/
def ofOperands (f : Nat → Nat) (s : State) : Quad Nat := ⟨f s.v0.toNat, f s.v1.toNat, f s.v2.toNat, f s.v3.toNat⟩

/-- 1 + L_1 + L_2 + L_3 + L_4 (43_quad_fixed.md R131, 44_quad_compact.md R151). -/
def quadTotal (n : Quad Nat) : Nat := 1 + n.s1 + n.s2 + n.s3 + n.s4

/-- Four 2-bit fields as one number, slot 1 in the most significant position (30_encoding.md R83). -/
def headerOf (f : Quad Nat) : Nat := 64 * f.s1 + 16 * f.s2 + 4 * f.s3 + f.s4

/-- The fields of a header byte (30_encoding.md R83). -/
def fieldsOf (h : Nat) : Quad Nat := ⟨h / 64 % 4, h / 16 % 4, h / 4 % 4, h % 4⟩

/-- Each of four numbers less one, and plus one: the fixed-slot fields and lengths (30_encoding.md R84). -/
def minusOne (n : Quad Nat) : Quad Nat := ⟨n.s1 - 1, n.s2 - 1, n.s3 - 1, n.s4 - 1⟩

def plusOne (n : Quad Nat) : Quad Nat := ⟨n.s1 + 1, n.s2 + 1, n.s3 + 1, n.s4 + 1⟩

/-- The `n` low-order bytes of a value, least significant first (20_memory.md R52). -/
def littleEndian (n : Nat) (v : Word) : List Byte := (List.range n).map fun i => BitVec.ofNat 8 (v.toNat / 256 ^ i)

/-- The bytes of a quad (30_encoding.md R84, R85). -/
def quadImage (h : Nat) (n : Quad Nat) (s : State) : List Byte :=
  BitVec.ofNat 8 h ::
    (littleEndian n.s1 s.v0 ++ littleEndian n.s2 s.v1 ++ littleEndian n.s3 s.v2 ++ littleEndian n.s4 s.v3)

/-- Byte i of the canonical `n`-byte encoding of a value (42_varint.md R111): group n - 1 - i, with 128 for the
continuation bit on all but the last. -/
def groupByte (v : Word) (n i : Nat) : Byte :=
  BitVec.ofNat 8 ((if i + 1 < n then 128 else 0) + v.toNat / 128 ^ (n - 1 - i) % 128)

/-- Buffer memory `m` is that of `s` with `bs` stored from the start of the window: the stored bytes read back, and
every byte at any other address reads as before. -/
def Stored (s : State) (bs : List Byte) (m : Memory) : Prop :=
  (∀ i (h : i < bs.length), m.read (s.windowAddr i) = bs[i]) ∧
  ∀ a, (∀ i, i < bs.length → a ≠ s.windowAddr i) → m.read a = s.mem.read a

/-- The little-endian value of `n` bytes from offset `j` of the window (20_memory.md R52). -/
def bytesValue (s : State) (j n : Nat) : Nat :=
  ((List.range n).map fun i => (s.windowByte (j + i)).toNat * 256 ^ i).sum

/-- The value of the 7-bit groups of the first `n` bytes of the window, most significant first (30_encoding.md
R80). -/
def groupsValue (s : State) (n : Nat) : Nat :=
  ((List.range n).map fun i => (s.windowByte i).toNat % 128 * 128 ^ (n - 1 - i)).sum

/-- The first `n` bytes of the window are one continuation-bit sequence (30_encoding.md R80): bit 7 set in all but the
last. -/
def Sequence (s : State) (n : Nat) : Prop :=
  0 < n ∧ n ≤ s.lenA ∧ (∀ i, i + 1 < n → 128 ≤ (s.windowByte i).toNat) ∧ (s.windowByte (n - 1)).toNat < 128

/-- The state after a memory command that moved `c` bytes and nothing else: CNT, CUR, LEN (20_memory.md R58) and
STATUS.CODE = OK with STICKY kept (60_exceptions.md R203). -/
def movedOk (s : State) (c : Nat) : State :=
  { s with
    cnt := BitVec.ofNat 32 c
    cur := BitVec.ofNat 32 ((s.curA + c) % s.memSize)
    len := BitVec.ofNat 32 (s.lenA - c)
    status := { s.status with code := .ok } }

/-- The state after a command that raises: STATUS alone, with STICKY set (00_scope.md R12, 60_exceptions.md R203). -/
def raised (s : State) (c : Completion) : State := { s with status := ⟨c, true⟩ }

/-- STATUS after a command that completes with OK (60_exceptions.md R203). -/
def okStatus (s : State) : Status := { s.status with code := .ok }

/-- V0..V3 are all at most 0xFFFFFF (44_quad_compact.md R150). -/
def InCompactRange (s : State) : Prop :=
  s.v0.toNat ≤ 0xFFFFFF ∧ s.v1.toNat ≤ 0xFFFFFF ∧ s.v2.toNat ≤ 0xFFFFFF ∧ s.v3.toNat ≤ 0xFFFFFF

/-- The host rewinds CUR and LEN to what they were in `s`. -/
def rewind (s t : State) : State := { t with cur := s.cur, len := s.len }

/-- What a host read of each register offset up to 0x30 returns (10_state.md R21). -/
def registerMap (s : State) : List (BitVec 8 × Word) :=
  [(0x00, 0), (0x04, s.status.toWord), (0x08, BitVec.ofNat 32 s.curA), (0x0C, BitVec.ofNat 32 s.lenA), (0x10, s.cnt),
   (0x14, s.v0), (0x18, s.v1), (0x1C, s.v2), (0x20, s.v3), (0x24, s.r0), (0x28, s.r1), (0x2C, s.r2), (0x30, s.r3)]

/-- What a host write of `w` to each writable register other than CMD and STATUS leaves (10_state.md R21, R24). -/
def writableMap (s : State) (w : Word) : List (BitVec 8 × State) :=
  [(0x08, { s with cur := BitVec.ofNat 32 (w.toNat % s.memSize) }),
   (0x0C, { s with len := BitVec.ofNat 32 (w.toNat % s.memSize) }),
   (0x14, { s with v0 := w }), (0x18, { s with v1 := w }), (0x1C, { s with v2 := w }), (0x20, { s with v3 := w })]

end Sys2Proof.Statements

open Sys2Proof Sys2Proof.Machine Sys2Proof.Statements

/-! ### Command words -/

/-- 30_encoding.md R72 and R71's examples: the words of the seventeen commands, and illegal ones. -/
def Obligations.CommandWordsDecode : Prop :=
  ([0x01, 0x02, 0x10, 0x11, 0x12, 0x20, 0x21, 0x22, 0x23, 0x24, 0x28, 0x29, 0x2A, 0x2B, 0x2C, 0x330, 0x431] :
      List Word).map (fun w => (decode w).toOption) =
    [some .blenF, some .blenC, some .venc, some .vdec, some .vskip, some .qsizeF, some .hencF, some .hdecF,
     some .qencF, some .qdecF, some .qsizeC, some .hencC, some .hdecC, some .qencC, some .qdecC, some (.lepack 3),
     some (.leunpack 4)] ∧
  ([0x00, 0x03, 0x101, 0x800, 0x80000010, 0x530, 0x731] : List Word).all (fun w => (decode w).toOption.isNone) = true

/-- Decoding and encoding agree in both directions: a word decodes to a command exactly when the command is well-formed
and the word is its encoding (30_encoding.md R70 to R74). No bit of a word is dropped, and no two words name one
command. -/
def Obligations.DecodeInvertsEncode : Prop :=
  ∀ (w : Word) (i : Instr), decode w = .ok i ↔ i.wf = true ∧ encode i = w

/-- 30_encoding.md R71: which words are legal, and what writing any other to CMD does. -/
def Obligations.LegalWordsAndIllegalOnes : Prop :=
  ∀ w : Word,
    ((∃ i, decode w = .ok i) ↔
      w.toNat / 2 ^ 11 = 0 ∧
      ((w.toNat % 256 ∈ [0x30, 0x31] ∧ w.toNat / 256 % 8 ≤ 4) ∨
       (w.toNat % 256 ∈ [0x01, 0x02, 0x10, 0x11, 0x12, 0x20, 0x21, 0x22, 0x23, 0x24, 0x28, 0x29, 0x2A, 0x2B, 0x2C] ∧
        w.toNat / 256 % 8 = 0))) ∧
    ((¬ ∃ i, decode w = .ok i) →
      ∀ s rest, s.pending = .regWrite .word 0x00 w :: rest →
        step s = .next (raised { s with pending := rest } .illegalCommand))

/-- opcode_table.json: a word that decodes matches the mask and pattern of its own row and of no other row, and a word
that matches a row and has NB at most 4 decodes to a command of that row. -/
def Obligations.OpcodeRowsAreUnambiguous : Prop :=
  (∀ (w : Word) (i j : Instr), decode w = .ok i → i.row.accepts w = true ∧ (j.row.accepts w = true → j.row = i.row)) ∧
  ∀ (w : Word) (j : Instr), j.row.accepts w = true → (nbField w).toNat ≤ 4 → ∃ i, decode w = .ok i ∧ i.row = j.row

/-! ### The step and the host's accesses -/

/-- 10_state.md R22: when the host's next access writes to CMD a word that decodes to a command, the step is that
command's meaning at that state, with the access taken off the host's list. -/
def Obligations.StepRunsDecodedCommand : Prop :=
  ∀ (s : State) (w : Word) (i : Instr) (rest : List HostAccess),
    s.pending = .regWrite .word 0x00 w :: rest → decode w = .ok i → step s = exec i { s with pending := rest }

/-- 70_reset_and_hazards.md R231: with no host access left the block waits and nothing changes. The step that does so is
the model's choice (log 4). -/
def Obligations.IdleStepChangesNothing : Prop := ∀ s : State, s.pending = [] → step s = .next s

/-- 10_state.md R37, with R30, R31 and R32: what the block holds right after reset. -/
def Obligations.ResetHoldsItsValues : Prop :=
  State.reset.status = ⟨.ok, false⟩ ∧ State.reset.cur = 0 ∧ State.reset.len = 0 ∧ State.reset.cnt = 0 ∧
  State.reset.v0 = 0 ∧ State.reset.v1 = 0 ∧ State.reset.v2 = 0 ∧ State.reset.v3 = 0 ∧
  State.reset.r0 = 0 ∧ State.reset.r1 = 0 ∧ State.reset.r2 = 0 ∧ State.reset.r3 = 0 ∧
  (∀ offset, State.reset.readReg offset = 0) ∧ State.reset.tablesFixed

/-- 70_reset_and_hazards.md R233: a memory command straight after reset finds LEN = 0. LEPACK 0 and LEUNPACK 0 complete with
OK, every other one with InsufficientBuffer. -/
def Obligations.MemoryCommandsAfterReset : Prop :=
  ∀ i : Instr, i.wf = true → i.encodes = true ∨ i.decodes = true →
    exec i State.reset =
      .next (if i = .lepack 0 ∨ i = .leunpack 0 then State.reset else raised State.reset .insufficientBuffer)

/-- 70_reset_and_hazards.md R230: asserting reset between commands clears every interface register and touches neither
buffer memory nor the tables. That the reset is one of the host's accesses, and leaves the parameters, the host's later
accesses and what the host last read, is the model's reading (log 18, with log 8). -/
def Obligations.ResetInputClearsRegistersOnly : Prop :=
  ∀ (s : State) (rest : List HostAccess), s.pending = .reset :: rest →
    step s = .next { s with
      status := ⟨.ok, false⟩, cur := 0, len := 0, cnt := 0, v0 := 0, v1 := 0, v2 := 0, v3 := 0,
      r0 := 0, r1 := 0, r2 := 0, r3 := 0, pending := rest }

/-- 10_state.md R21, reads: each register of the map is read at its offset, CMD reads 0, and a read changes nothing in
the block. (What the host's last read returned is the model's own field, log 8.) -/
def Obligations.HostReadsTheRegisterMap : Prop :=
  ∀ (s : State) (offset : BitVec 8) (w : Word) (rest : List HostAccess),
    s.pending = .regRead .word offset :: rest → (offset, w) ∈ registerMap s →
    step s = .next { s with pending := rest, lastRead := some (.word w) }

/-- 10_state.md R21 and R24, R26, R28, writes: CUR and LEN take ADDR_W bits, V0..V3 the whole word, and a write of CNT
or R0..R3 is ignored. -/
def Obligations.HostWritesTheRegisterMap : Prop :=
  (∀ (s t : State) (offset : BitVec 8) (w : Word) (rest : List HostAccess),
    s.pending = .regWrite .word offset w :: rest → (offset, t) ∈ writableMap s w →
    step s = .next { t with pending := rest }) ∧
  ∀ (s : State) (offset : BitVec 8) (w : Word) (rest : List HostAccess),
    s.pending = .regWrite .word offset w :: rest → offset ∈ ([0x10, 0x24, 0x28, 0x2C, 0x30] : List (BitVec 8)) →
    step s = .next { s with pending := rest }

/-- 10_state.md R23: STATUS as the host reads it, what a host write of it does, and what every command does to it. The
codes have the numbers of 60_exceptions.md R201, and 5, 6 and 7 are never produced. -/
def Obligations.StatusRegisterFields : Prop :=
  [Completion.ok, .valueOutOfRange, .truncatedInput, .insufficientBuffer, .illegalCommand].map
    (fun c => c.bits.toNat) = [0, 1, 2, 3, 4] ∧
  (∀ c : Completion, c.bits.toNat ≤ 4) ∧
  (∀ s : State, (s.readReg 0x04).toNat = s.status.code.bits.toNat + 256 * s.status.sticky.toNat) ∧
  (∀ (s : State) (w : Word) (rest : List HostAccess), s.pending = .regWrite .word 0x04 w :: rest →
    step s = .next { s with
      pending := rest, status := ⟨s.status.code, s.status.sticky && decide (w.toNat / 256 % 2 = 0)⟩ }) ∧
  ∀ (i : Instr) (s t : State), exec i s = .next t → (t.status.sticky = true ↔ s.status.sticky = true ∨ t.status.code ≠ .ok)

/-- 10_state.md R29: a register access that is not an aligned 32-bit word is refused (this is where the model stops), and
the reserved offsets read 0 and ignore writes. -/
def Obligations.OddRegisterAccessesRefused : Prop :=
  (∀ (s : State) (size : AccessSize) (offset : BitVec 8) (w : Word) (rest : List HostAccess),
    size ≠ .word ∨ offset.toNat % 4 ≠ 0 →
    (s.pending = .regRead size offset :: rest → step s = .refused (.registerAccessNotAlignedWord size offset)) ∧
    (s.pending = .regWrite size offset w :: rest → step s = .refused (.registerAccessNotAlignedWord size offset))) ∧
  ∀ (s : State) (offset : BitVec 8) (w : Word) (rest : List HostAccess),
    offset.toNat % 4 = 0 → 0x34 ≤ offset.toNat →
    (s.pending = .regRead .word offset :: rest →
      step s = .next { s with pending := rest, lastRead := some (.word 0) }) ∧
    (s.pending = .regWrite .word offset w :: rest → step s = .next { s with pending := rest })

/-- 20_memory.md R50, R51: a byte the host writes to buffer memory is read back by the host, every other byte and all of
the block's registers stay. The stop at an address that does not exist is the model's choice (log 6). -/
def Obligations.HostReachesBufferMemory : Prop :=
  ∀ (s : State) (a : Nat) (b : Byte) (rest : List HostAccess), s.pending = .memWrite a b :: .memRead a :: rest →
    (a < s.memSize → ∃ m,
      step s = .next { s with pending := .memRead a :: rest, mem := m } ∧
      step { s with pending := .memRead a :: rest, mem := m } =
        .next { s with pending := rest, mem := m, lastRead := some (.byte b) } ∧
      ∀ a', a' ≠ a → m.read a' = s.mem.read a') ∧
    (s.memSize ≤ a → step s = .fault (.bufferAddressOutOfRange a))

/-! ### Invariants -/

/-- The invariant holds right after reset. -/
def Obligations.InvariantAtReset : Prop := State.reset.Inv

/-- Every step keeps the invariant, from every state that meets it: the tables hold their contents (10_state.md R30 to
R32), CUR and LEN use ADDR_W bits only (R24, R25), buffer memory is canonical and within 2^ADDR_W bytes (20_memory.md
R50). -/
def Obligations.StepKeepsInvariant : Prop := ∀ s t : State, s.Inv → step s = .next t → t.Inv

/-- 60_exceptions.md R200, R205, R206 and R210, over all steps: the machine goes on after every host access but a register
access that is not an aligned word and a memory access at an address that does not exist. No command stops it. -/
def Obligations.StepsStopOnOddAccessesOnly : Prop :=
  ∀ s : State,
    (∃ t, step s = .next t) ∨
    (∃ size offset rest, (size ≠ .word ∨ offset.toNat % 4 ≠ 0) ∧
      (s.pending = .regRead size offset :: rest ∨ ∃ w, s.pending = .regWrite size offset w :: rest)) ∨
    ∃ a rest, s.memSize ≤ a ∧ (s.pending = .memRead a :: rest ∨ ∃ b, s.pending = .memWrite a b :: rest)

/-! ### Rules about every command -/

/-- 60_exceptions.md R200: every command ends, and one that ends with an error changes no register but STATUS and no
memory. -/
def Obligations.ErrorsChangeOnlyStatus : Prop :=
  ∀ (i : Instr) (s : State), ∃ t, exec i s = .next t ∧ (t.status.code ≠ .ok → t = raised s t.status.code)

/-- 60_exceptions.md R203: CODE and STICKY on completion, and STICKY cleared only by reset or by the host writing 1 to
it. -/
def Obligations.StickyRecordsFailures : Prop :=
  (∀ (i : Instr) (s t : State), exec i s = .next t → t.status.sticky = (s.status.sticky || t.status.code != .ok)) ∧
  ∀ s t : State, step s = .next t → s.status.sticky = true → t.status.sticky = false →
    ∃ rest, s.pending = .reset :: rest ∨ ∃ w : Word, w.getLsbD 8 = true ∧ s.pending = .regWrite .word 0x04 w :: rest

/-- 10_state.md R35: no command reads STATUS. From states that differ in STATUS alone, every command gives the same code and
the same state but for STICKY, which each adds to its own. -/
def Obligations.StatusIsOutputOnly : Prop :=
  ∀ (i : Instr) (s t : State) (before : Status), exec i s = .next t →
    exec i { s with status := before } =
      .next { t with status := ⟨t.status.code, before.sticky || t.status.code != .ok⟩ }

/-- 60_exceptions.md R202 and R204: which commands report which code, and that an empty window is InsufficientBuffer and
never TruncatedInput. That an ill-formed LEPACK or LEUNPACK, which no word decodes to, ends with IllegalCommand is the
model's reading of 45_le_packer.md R170 and R171 (log 16). -/
def Obligations.CodesHaveTheirCauses : Prop :=
  ∀ (i : Instr) (s t : State), exec i s = .next t →
    (t.status.code = .valueOutOfRange → i ∈ [.blenC, .qsizeC, .hencC, .qencC]) ∧
    (t.status.code = .truncatedInput → i.decodes = true ∧ 0 < s.lenA) ∧
    (t.status.code = .insufficientBuffer → i.encodes = true ∨ (i.decodes = true ∧ s.lenA = 0)) ∧
    (t.status.code = .illegalCommand ↔ i.wf = false)

/-- 10_state.md R27 and 00_scope.md R6, over all commands: no command writes V0..V3, the tables, the parameters or the
host's side. -/
def Obligations.CommandsKeepOperandsAndTables : Prop :=
  ∀ (i : Instr) (s t : State), exec i s = .next t →
    t.v0 = s.v0 ∧ t.v1 = s.v1 ∧ t.v2 = s.v2 ∧ t.v3 = s.v3 ∧ t.romF = s.romF ∧ t.romC = s.romC ∧
    t.maskRom = s.maskRom ∧ t.cfg = s.cfg ∧ t.pending = s.pending ∧ t.lastRead = s.lastRead

/-- 10_state.md R30, R31 and R32: the contents of the tables, and that neither a command nor a host access writes
them. -/
def Obligations.TablesHoldTheirRule : Prop :=
  (∀ h : Fin 256,
    (State.reset.romF.get h).map Fin.val = plusOne (fieldsOf h.val) ∧
    (State.reset.romC.get h).map Fin.val = fieldsOf h.val) ∧
  (∀ n : Fin 5, (State.reset.maskRom.get n).toNat = 2 ^ (8 * n.val) - 1) ∧
  (∀ s : State, s.tablesFixed → ∀ (j : Nat) (n : Len), s.memRead j n.val &&& s.maskRom.get n = s.memRead j n.val) ∧
  ∀ s t : State, step s = .next t → t.romF = s.romF ∧ t.romC = s.romC ∧ t.maskRom = s.maskRom

/-- 10_state.md R33: the word a decode-table entry is stored as holds the length of slot i + 1 in byte i. -/
def Obligations.TableEntryWordLayout : Prop :=
  ∀ l : Quad Len, (entryWord l).toNat = l.s1.val + 256 * l.s2.val + 65536 * l.s3.val + 16777216 * l.s4.val

/-- 20_memory.md R54, R50 and R61: no command writes a byte outside the buffer window, and only the encoders write
memory at all. -/
def Obligations.WritesStayInTheWindow : Prop :=
  ∀ (i : Instr) (s t : State), exec i s = .next t →
    (∀ a, ¬ s.inWindow a → t.mem.read a = s.mem.read a) ∧ (i.encodes = false → t.mem = s.mem)

/-- 10_state.md R36: a command's outcome is a function of the interface registers, the tables and the bytes in the
window. Two states that differ only in memory outside the window give the same registers and STATUS, and the same
byte at every address where they agreed. -/
def Obligations.OutcomeDependsOnTheWindowOnly : Prop :=
  ∀ (i : Instr) (s t s' : State), s.sameForCommands t → exec i s = .next s' →
    ∃ t', exec i t = .next t' ∧ { s' with mem := [] } = { t' with mem := [] } ∧
      ∀ a, s.mem.read a = t.mem.read a → s'.mem.read a = t'.mem.read a

/-- 20_memory.md R58 over all memory commands that complete with OK: CUR goes on and LEN goes down by CNT, which is at
most LEN; every other command leaves the three. -/
def Obligations.MemoryCommandsMoveTheWindow : Prop :=
  ∀ (i : Instr) (s t : State), exec i s = .next t →
    if (i.encodes || i.decodes) && t.status.code == .ok then
      t.cnt.toNat ≤ s.lenA ∧ t.cur.toNat = (s.curA + t.cnt.toNat) % s.memSize ∧ t.len.toNat = s.lenA - t.cnt.toNat
    else t.cnt = s.cnt ∧ t.cur = s.cur ∧ t.len = s.len

/-- 20_memory.md R61: a decoder leaves buffer memory unchanged, and repeating it with the same CUR and LEN gives the same
result. -/
def Obligations.DecodersRepeat : Prop :=
  ∀ (i : Instr) (s t : State), i.decodes = true → exec i s = .next t →
    t.mem = s.mem ∧ exec i (rewind s t) = .next t

/-! ### The byte-length calculator -/

/-- 41_byte_length.md R102 with R100. -/
def Obligations.BlenFResult : Prop :=
  decode 0x00000001 = .ok .blenF ∧
  ∀ s : State, exec .blenF s = .next { s with r0 := BitVec.ofNat 32 (byteLenF s.v0.toNat), status := okStatus s }

/-- 41_byte_length.md R103 with R101. -/
def Obligations.BlenCResult : Prop :=
  decode 0x00000002 = .ok .blenC ∧
  ∀ s : State,
    (s.v0.toNat ≤ 0xFFFFFF →
      exec .blenC s = .next { s with r0 := BitVec.ofNat 32 (byteLenC s.v0.toNat), status := okStatus s }) ∧
    (0xFFFFFF < s.v0.toNat → exec .blenC s = .next (raised s .valueOutOfRange))

/-! ### The continuation-bit codec -/

/-- 42_varint.md R110: vlen is the least n of at least 1 with v < 2^(7n), and at most 5. -/
def Obligations.VlenIsLeast : Prop :=
  ∀ v : Word, 1 ≤ vlen v ∧ vlen v ≤ 5 ∧ v.toNat < 2 ^ (7 * vlen v) ∧ ∀ n, 1 ≤ n → v.toNat < 2 ^ (7 * n) → vlen v ≤ n

/-- 42_varint.md R114 with R111: the bytes VENC writes, and where it raises. -/
def Obligations.VencResult : Prop :=
  decode 0x00000010 = .ok .venc ∧
  ∀ s : State,
    (vlen s.v0 ≤ s.lenA → ∃ m,
      exec .venc s = .next { movedOk s (vlen s.v0) with mem := m } ∧
      Stored s ((List.range (vlen s.v0)).map (groupByte s.v0 (vlen s.v0))) m) ∧
    (s.lenA < vlen s.v0 → exec .venc s = .next (raised s .insufficientBuffer))

/-- 42_varint.md R115 with R112: what VDEC returns for the sequence at the start of the window, and where it raises. For a
sequence of more than 5 bytes, or 5 with b_0[6:4] not zero, the value is fixed under wrap32 only. -/
def Obligations.VdecResult : Prop :=
  decode 0x00000011 = .ok .vdec ∧
  ∀ s : State,
    (∀ n, Sequence s n → ∃ r,
      exec .vdec s = .next { movedOk s n with r0 := r } ∧
      (s.cfg.vdecOverlong = .wrap32 ∨ n < 5 ∨ (n = 5 ∧ (s.windowByte 0).toNat % 128 < 16) →
        r = BitVec.ofNat 32 (groupsValue s n))) ∧
    (s.lenA = 0 → exec .vdec s = .next (raised s .insufficientBuffer)) ∧
    (0 < s.lenA → (∀ k, k < s.lenA → 128 ≤ (s.windowByte k).toNat) → exec .vdec s = .next (raised s .truncatedInput))

/-- 42_varint.md R116: VSKIP moves past the sequence and leaves R0, and its status and byte count are those VDEC gives from
the same state. -/
def Obligations.VskipResult : Prop :=
  decode 0x00000012 = .ok .vskip ∧
  (∀ s : State,
    (∀ n, Sequence s n → exec .vskip s = .next (movedOk s n)) ∧
    (s.lenA = 0 → exec .vskip s = .next (raised s .insufficientBuffer)) ∧
    (0 < s.lenA → (∀ k, k < s.lenA → 128 ≤ (s.windowByte k).toNat) →
      exec .vskip s = .next (raised s .truncatedInput))) ∧
  ∀ s t : State, exec .vdec s = .next t → exec .vskip s = .next { t with r0 := s.r0 }

/-- 42_varint.md R117: the round trip, under either value of VDEC_OVERLONG. -/
def Obligations.VarintRoundTrip : Prop :=
  ∀ s t : State, exec .venc s = .next t → t.status.code = .ok →
    ∃ u, exec .vdec (rewind s t) = .next u ∧ u.status.code = .ok ∧ u.r0 = s.v0 ∧ u.cnt = t.cnt

/-! ### The fixed-slot quad codec -/

/-- 43_quad_fixed.md R133. -/
def Obligations.QsizeFResult : Prop :=
  decode 0x00000020 = .ok .qsizeF ∧
  ∀ s : State,
    exec .qsizeF s =
      .next { s with r0 := BitVec.ofNat 32 (quadTotal (ofOperands byteLenF s)), status := okStatus s } ∧
    5 ≤ quadTotal (ofOperands byteLenF s) ∧ quadTotal (ofOperands byteLenF s) ≤ 17

/-- 43_quad_fixed.md R134. -/
def Obligations.HencFResult : Prop :=
  decode 0x00000021 = .ok .hencF ∧
  ∀ s : State,
    exec .hencF s =
      .next { s with r0 := BitVec.ofNat 32 (headerOf (minusOne (ofOperands byteLenF s))), status := okStatus s }

/-- 43_quad_fixed.md R135. -/
def Obligations.HdecFResult : Prop :=
  decode 0x00000022 = .ok .hdecF ∧
  ∀ s : State, s.tablesFixed →
    let n := plusOne (fieldsOf (s.v0.toNat % 256))
    exec .hdecF s = .next { s with
      r0 := BitVec.ofNat 32 n.s1, r1 := BitVec.ofNat 32 n.s2, r2 := BitVec.ofNat 32 n.s3, r3 := BitVec.ofNat 32 n.s4
      status := okStatus s }

/-- 43_quad_fixed.md R136. -/
def Obligations.QencFResult : Prop :=
  decode 0x00000023 = .ok .qencF ∧
  ∀ s : State,
    let n := ofOperands byteLenF s
    (quadTotal n ≤ s.lenA → ∃ m,
      exec .qencF s = .next { movedOk s (quadTotal n) with mem := m } ∧
      Stored s (quadImage (headerOf (minusOne n)) n s) m) ∧
    (s.lenA < quadTotal n → exec .qencF s = .next (raised s .insufficientBuffer))

/-- 43_quad_fixed.md R137. -/
def Obligations.QdecFResult : Prop :=
  decode 0x00000024 = .ok .qdecF ∧
  ∀ s : State, s.tablesFixed →
    let n := plusOne (fieldsOf (s.windowByte 0).toNat)
    (s.lenA = 0 → exec .qdecF s = .next (raised s .insufficientBuffer)) ∧
    (0 < s.lenA → s.lenA < quadTotal n → exec .qdecF s = .next (raised s .truncatedInput)) ∧
    (quadTotal n ≤ s.lenA → exec .qdecF s = .next { movedOk s (quadTotal n) with
      r0 := BitVec.ofNat 32 (bytesValue s 1 n.s1)
      r1 := BitVec.ofNat 32 (bytesValue s (1 + n.s1) n.s2)
      r2 := BitVec.ofNat 32 (bytesValue s (1 + n.s1 + n.s2) n.s3)
      r3 := BitVec.ofNat 32 (bytesValue s (1 + n.s1 + n.s2 + n.s3) n.s4) })

/-- 43_quad_fixed.md R138: HDEC.F of the header HENC.F gives returns the four byte-lengths, and ROM_F is its fields plus
one for every header byte. -/
def Obligations.FixedHeaderConsistency : Prop :=
  ∀ s t : State, s.tablesFixed → exec .hencF s = .next t →
    exec .hdecF { t with v0 := t.r0 } = .next { t with
      v0 := t.r0
      r0 := BitVec.ofNat 32 (byteLenF s.v0.toNat), r1 := BitVec.ofNat 32 (byteLenF s.v1.toNat)
      r2 := BitVec.ofNat 32 (byteLenF s.v2.toNat), r3 := BitVec.ofNat 32 (byteLenF s.v3.toNat) } ∧
    ∀ h : Fin 256, (s.romF.get h).map Fin.val = plusOne (fieldsOf h.val)

/-- 43_quad_fixed.md R139: the round trip, and that CNT is QSIZE.F's result. -/
def Obligations.FixedQuadRoundTrip : Prop :=
  ∀ s t q : State, s.tablesFixed → exec .qencF s = .next t → t.status.code = .ok → exec .qsizeF s = .next q →
    ∃ u, exec .qdecF (rewind s t) = .next u ∧ u.status.code = .ok ∧
      u.r0 = s.v0 ∧ u.r1 = s.v1 ∧ u.r2 = s.v2 ∧ u.r3 = s.v3 ∧ u.cnt = t.cnt ∧ t.cnt = q.r0

/-! ### The compact quad codec -/

/-- 44_quad_compact.md R153. -/
def Obligations.QsizeCResult : Prop :=
  decode 0x00000028 = .ok .qsizeC ∧
  ∀ s : State,
    (InCompactRange s →
      exec .qsizeC s =
        .next { s with r0 := BitVec.ofNat 32 (quadTotal (ofOperands byteLenC s)), status := okStatus s } ∧
      1 ≤ quadTotal (ofOperands byteLenC s) ∧ quadTotal (ofOperands byteLenC s) ≤ 13) ∧
    (¬ InCompactRange s → exec .qsizeC s = .next (raised s .valueOutOfRange))

/-- 44_quad_compact.md R154. -/
def Obligations.HencCResult : Prop :=
  decode 0x00000029 = .ok .hencC ∧
  ∀ s : State,
    (InCompactRange s →
      exec .hencC s =
        .next { s with r0 := BitVec.ofNat 32 (headerOf (ofOperands byteLenC s)), status := okStatus s }) ∧
    (¬ InCompactRange s → exec .hencC s = .next (raised s .valueOutOfRange))

/-- 44_quad_compact.md R155. -/
def Obligations.HdecCResult : Prop :=
  decode 0x0000002A = .ok .hdecC ∧
  ∀ s : State, s.tablesFixed →
    let n := fieldsOf (s.v0.toNat % 256)
    exec .hdecC s = .next { s with
      r0 := BitVec.ofNat 32 n.s1, r1 := BitVec.ofNat 32 n.s2, r2 := BitVec.ofNat 32 n.s3, r3 := BitVec.ofNat 32 n.s4
      status := okStatus s }

/-- 44_quad_compact.md R156: the range is checked before the space. -/
def Obligations.QencCResult : Prop :=
  decode 0x0000002B = .ok .qencC ∧
  ∀ s : State,
    let n := ofOperands byteLenC s
    (InCompactRange s → quadTotal n ≤ s.lenA → ∃ m,
      exec .qencC s = .next { movedOk s (quadTotal n) with mem := m } ∧ Stored s (quadImage (headerOf n) n s) m) ∧
    (InCompactRange s → s.lenA < quadTotal n → exec .qencC s = .next (raised s .insufficientBuffer)) ∧
    (¬ InCompactRange s → exec .qencC s = .next (raised s .valueOutOfRange))

/-- 44_quad_compact.md R157: every decoded value is at most 0xFFFFFF. -/
def Obligations.QdecCResult : Prop :=
  decode 0x0000002C = .ok .qdecC ∧
  ∀ s : State, s.tablesFixed →
    let n := fieldsOf (s.windowByte 0).toNat
    (s.lenA = 0 → exec .qdecC s = .next (raised s .insufficientBuffer)) ∧
    (0 < s.lenA → s.lenA < quadTotal n → exec .qdecC s = .next (raised s .truncatedInput)) ∧
    (quadTotal n ≤ s.lenA →
      exec .qdecC s = .next { movedOk s (quadTotal n) with
        r0 := BitVec.ofNat 32 (bytesValue s 1 n.s1)
        r1 := BitVec.ofNat 32 (bytesValue s (1 + n.s1) n.s2)
        r2 := BitVec.ofNat 32 (bytesValue s (1 + n.s1 + n.s2) n.s3)
        r3 := BitVec.ofNat 32 (bytesValue s (1 + n.s1 + n.s2 + n.s3) n.s4) } ∧
      bytesValue s 1 n.s1 ≤ 0xFFFFFF ∧ bytesValue s (1 + n.s1) n.s2 ≤ 0xFFFFFF ∧
      bytesValue s (1 + n.s1 + n.s2) n.s3 ≤ 0xFFFFFF ∧ bytesValue s (1 + n.s1 + n.s2 + n.s3) n.s4 ≤ 0xFFFFFF)

/-- 44_quad_compact.md R158. -/
def Obligations.CompactHeaderConsistency : Prop :=
  ∀ s t : State, s.tablesFixed → InCompactRange s → exec .hencC s = .next t →
    exec .hdecC { t with v0 := t.r0 } = .next { t with
      v0 := t.r0
      r0 := BitVec.ofNat 32 (byteLenC s.v0.toNat), r1 := BitVec.ofNat 32 (byteLenC s.v1.toNat)
      r2 := BitVec.ofNat 32 (byteLenC s.v2.toNat), r3 := BitVec.ofNat 32 (byteLenC s.v3.toNat) } ∧
    ∀ h : Fin 256, (s.romC.get h).map Fin.val = fieldsOf h.val

/-- 44_quad_compact.md R159. -/
def Obligations.CompactQuadRoundTrip : Prop :=
  ∀ s t q : State, s.tablesFixed → exec .qencC s = .next t → t.status.code = .ok → exec .qsizeC s = .next q →
    ∃ u, exec .qdecC (rewind s t) = .next u ∧ u.status.code = .ok ∧
      u.r0 = s.v0 ∧ u.r1 = s.v1 ∧ u.r2 = s.v2 ∧ u.r3 = s.v3 ∧ u.cnt = t.cnt ∧ t.cnt = q.r0

/-! ### The byte packer and unpacker -/

/-- 45_le_packer.md R170. -/
def Obligations.LepackResult : Prop :=
  ∀ (nb : BitVec 3) (s : State),
    (nb.toNat ≤ 4 →
      decode (BitVec.ofNat 32 (nb.toNat * 256 + 0x30)) = .ok (.lepack nb) ∧
      (nb.toNat ≤ s.lenA → ∃ m,
        exec (.lepack nb) s = .next { movedOk s nb.toNat with mem := m } ∧
        Stored s (littleEndian nb.toNat s.v0) m) ∧
      (s.lenA < nb.toNat → exec (.lepack nb) s = .next (raised s .insufficientBuffer))) ∧
    (4 < nb.toNat →
      (∀ i, decode (BitVec.ofNat 32 (nb.toNat * 256 + 0x30)) ≠ .ok i) ∧
      exec (.lepack nb) s = .next (raised s .illegalCommand))

/-- 45_le_packer.md R171: the value is below 2^(8n). -/
def Obligations.LeunpackResult : Prop :=
  ∀ (nb : BitVec 3) (s : State), s.tablesFixed →
    (nb.toNat ≤ 4 →
      decode (BitVec.ofNat 32 (nb.toNat * 256 + 0x31)) = .ok (.leunpack nb) ∧
      (nb.toNat ≤ s.lenA →
        exec (.leunpack nb) s =
          .next { movedOk s nb.toNat with r0 := BitVec.ofNat 32 (bytesValue s 0 nb.toNat) } ∧
        bytesValue s 0 nb.toNat < 2 ^ (8 * nb.toNat)) ∧
      (0 < nb.toNat → s.lenA = 0 → exec (.leunpack nb) s = .next (raised s .insufficientBuffer)) ∧
      (0 < s.lenA → s.lenA < nb.toNat → exec (.leunpack nb) s = .next (raised s .truncatedInput))) ∧
    (4 < nb.toNat →
      (∀ i, decode (BitVec.ofNat 32 (nb.toNat * 256 + 0x31)) ≠ .ok i) ∧
      exec (.leunpack nb) s = .next (raised s .illegalCommand))

/-- 45_le_packer.md R170 and R171 together: what LEPACK n packs, LEUNPACK n at the same place returns, cut to n bytes. -/
def Obligations.UnpackReturnsWhatPackWrote : Prop :=
  ∀ (nb : BitVec 3) (s t : State), s.tablesFixed → exec (.lepack nb) s = .next t → t.status.code = .ok →
    ∃ u, exec (.leunpack nb) (rewind s t) = .next u ∧ u.status.code = .ok ∧
      u.r0.toNat = s.v0.toNat % 256 ^ nb.toNat ∧ u.cnt = t.cnt ∧ u.mem = t.mem

/-- 45_le_packer.md R172, writes: the payload bytes QENC.F and QENC.C write after the header are the bytes that LEPACK
L_1, …, LEPACK L_4 of V0..V3 write one after the other from there; reads: the values QDEC.F and QDEC.C return are those
that LEUNPACK L_1, …, LEUNPACK L_4 return one after the other from there. -/
def Obligations.QuadPayloadsArePacks : Prop :=
  (∀ (s t p1 p2 p3 p4 : State) (n : Quad Nat) (h : Nat),
    (exec .qencF s = .next t ∧ n = ofOperands byteLenF s ∧ h = headerOf (minusOne n)) ∨
      (exec .qencC s = .next t ∧ n = ofOperands byteLenC s ∧ h = headerOf n) →
    t.status.code = .ok →
    exec (.lepack (BitVec.ofNat 3 n.s1))
      { movedOk s 1 with mem := s.mem.write (s.windowAddr 0) (BitVec.ofNat 8 h) } = .next p1 →
    exec (.lepack (BitVec.ofNat 3 n.s2)) { p1 with v0 := s.v1 } = .next p2 →
    exec (.lepack (BitVec.ofNat 3 n.s3)) { p2 with v0 := s.v2 } = .next p3 →
    exec (.lepack (BitVec.ofNat 3 n.s4)) { p3 with v0 := s.v3 } = .next p4 →
    (∀ p ∈ [p1, p2, p3, p4], p.status.code = .ok) ∧ p4.mem = t.mem ∧ p4.cur = t.cur ∧ p4.len = t.len) ∧
  ∀ (s t u1 u2 u3 u4 : State) (n : Quad Nat), s.tablesFixed →
    (exec .qdecF s = .next t ∧ n = plusOne (fieldsOf (s.windowByte 0).toNat)) ∨
      (exec .qdecC s = .next t ∧ n = fieldsOf (s.windowByte 0).toNat) →
    t.status.code = .ok →
    exec (.leunpack (BitVec.ofNat 3 n.s1)) (movedOk s 1) = .next u1 →
    exec (.leunpack (BitVec.ofNat 3 n.s2)) u1 = .next u2 →
    exec (.leunpack (BitVec.ofNat 3 n.s3)) u2 = .next u3 →
    exec (.leunpack (BitVec.ofNat 3 n.s4)) u3 = .next u4 →
    (∀ u ∈ [u1, u2, u3, u4], u.status.code = .ok) ∧
    u1.r0 = t.r0 ∧ u2.r0 = t.r1 ∧ u3.r0 = t.r2 ∧ u4.r0 = t.r3 ∧ u4.cur = t.cur ∧ u4.len = t.len
end

