-- ==== Sys2Proof/Laws/Decode.lean ====
section
/-!
SUPPORT. Command words: a word's fields over numbers, when two words are the same, and what a decoded word says about
itself.
-/

namespace Sys2Proof

theorem opcField_toNat (w : Word) : (opcField w).toNat = w.toNat % 256 := by simp [opcField]

theorem nbField_toNat (w : Word) : (nbField w).toNat = w.toNat / 256 % 8 := by
  simp [nbField, Nat.shiftRight_eq_div_pow]

theorem resField_toNat (w : Word) : (resField w).toNat = w.toNat / 2048 := by
  have := w.isLt
  simp only [resField, BitVec.extractLsb'_toNat, Nat.shiftRight_eq_div_pow]
  omega

/-- A word is its three fields (30_encoding.md R70). -/
theorem word_eq_of_fields {w x : Word} (ho : opcField w = opcField x) (hn : nbField w = nbField x)
    (hr : resField w = resField x) : w = x := by
  apply BitVec.eq_of_toNat_eq
  have ho := congrArg BitVec.toNat ho
  have hn := congrArg BitVec.toNat hn
  have hr := congrArg BitVec.toNat hr
  rw [opcField_toNat, opcField_toNat] at ho
  rw [nbField_toNat, nbField_toNat] at hn
  rw [resField_toNat, resField_toNat] at hr
  omega

theorem encode_toNat (i : Instr) : (encode i).toNat = i.nb.toNat * 256 + i.opc.toNat := by
  have hn : i.nb.toNat < 2 ^ 3 := i.nb.isLt
  have ho : i.opc.toNat < 2 ^ 8 := i.opc.isLt
  simp only [encode, BitVec.toNat_or, BitVec.toNat_shiftLeft, BitVec.toNat_setWidth]
  rw [Nat.mod_eq_of_lt (a := i.nb.toNat) (by omega), Nat.mod_eq_of_lt (a := i.opc.toNat) (by omega), Nat.shiftLeft_eq,
    Nat.mod_eq_of_lt (by omega), Nat.mul_comm, ← Nat.two_pow_add_eq_or_of_lt ho]

theorem opcField_encode (i : Instr) : opcField (encode i) = i.opc := by
  apply BitVec.eq_of_toNat_eq
  have ho : i.opc.toNat < 256 := i.opc.isLt
  rw [opcField_toNat, encode_toNat]
  omega

theorem nbField_encode (i : Instr) : nbField (encode i) = i.nb := by
  apply BitVec.eq_of_toNat_eq
  have hn : i.nb.toNat < 8 := i.nb.isLt
  have ho : i.opc.toNat < 256 := i.opc.isLt
  rw [nbField_toNat, encode_toNat]
  omega

theorem resField_encode (i : Instr) : resField (encode i) = 0 := by
  apply BitVec.eq_of_toNat_eq
  have hn : i.nb.toNat < 8 := i.nb.isLt
  have ho : i.opc.toNat < 256 := i.opc.isLt
  rw [resField_toNat, encode_toNat]
  simp
  omega

theorem decodePlain_ok {w : Word} {i j : Instr} : decodePlain w i = .ok j ↔ nbField w = 0 ∧ i = j := by
  unfold decodePlain; split <;> simp_all

theorem decodeCounted_ok {w : Word} {i j : Instr} : decodeCounted w i = .ok j ↔ (nbField w).toNat ≤ 4 ∧ i = j := by
  unfold decodeCounted; split <;> simp [*]

/-- What a decoded word says: RES is zero, OPC and NB are the command's, and the command is well-formed. -/
theorem decode_fields {w : Word} {i : Instr} (h : decode w = .ok i) :
    resField w = 0 ∧ opcField w = i.opc ∧ nbField w = i.nb ∧ i.wf = true := by
  unfold decode at h
  split at h
  case isFalse => simp at h
  case isTrue hr =>
    refine ⟨hr, ?_⟩
    unfold decodeOpc at h
    split at h <;> first
      | cases h
      | rename_i ho
        first
          | obtain ⟨hn, rfl⟩ := decodePlain_ok.mp h
            exact ⟨BitVec.eq_of_toNat_eq ho, hn, rfl⟩
          | obtain ⟨hn, rfl⟩ := decodeCounted_ok.mp h
            exact ⟨BitVec.eq_of_toNat_eq ho, rfl, by simpa [Instr.wf] using hn⟩

/-- One command of each row: every command's row is one of the table's. -/
theorem row_mem_opcodeTable (i : Instr) : i.row ∈ opcodeTable := by
  cases i <;> simp [opcodeTable, commands, Instr.row]

end Sys2Proof
end

