-- ==== Sys2Proof/Laws/Memory.lean ====
section
/-!
SUPPORT. Buffer memory: a write is read back, leaves every other byte, and keeps the canonical form; the same for a run of
bytes stored from an offset on, addresses modulo the size.
-/

namespace Sys2Proof.Machine

@[simp] theorem Memory.read_nil (a : Nat) : Memory.read [] a = unlistedByte := rfl

theorem Memory.read_without_same (m : Memory) (a : Nat) : (m.without a).read a = unlistedByte := by
  induction m with
  | nil => rfl
  | cons c m ih =>
    obtain ⟨k, b⟩ := c
    by_cases h : k = a
    · simpa [Memory.without, h] using ih
    · simpa [Memory.without, Memory.read, h] using ih

theorem Memory.read_without_other (m : Memory) {a a' : Nat} (h : a' ≠ a) : (m.without a).read a' = m.read a' := by
  induction m with
  | nil => rfl
  | cons c m ih =>
    obtain ⟨k, b⟩ := c
    simp only [Memory.without] at ih
    by_cases hk : k = a
    · simp [Memory.without, Memory.read, hk, h.symm, ih]
    · simp [Memory.without, Memory.read, hk, ih]

theorem Memory.read_put_same {m : Memory} {a : Nat} (b : Byte) (h : ∀ c ∈ m, c.1 ≠ a) :
    (Memory.put a b m).read a = b := by
  induction m with
  | nil => simp [Memory.put, Memory.read]
  | cons c m ih =>
    obtain ⟨k, d⟩ := c
    have hk : k ≠ a := h (k, d) (by simp)
    rw [Memory.put]
    split
    · simp [Memory.read]
    · simpa [Memory.read, hk] using ih fun c hc => h c (by simp [hc])

theorem Memory.read_put_other (m : Memory) {a a' : Nat} (b : Byte) (h : a' ≠ a) :
    (Memory.put a b m).read a' = m.read a' := by
  induction m with
  | nil => simp [Memory.put, Memory.read, h.symm]
  | cons c m ih =>
    obtain ⟨k, d⟩ := c
    rw [Memory.put]
    split
    · simp [Memory.read, h.symm]
    · simp [Memory.read, ih]

theorem Memory.mem_without {m : Memory} {a : Nat} {c : Host.Cell} : c ∈ m.without a ↔ c ∈ m ∧ c.1 ≠ a := by
  simp [Memory.without]

theorem Memory.mem_put {m : Memory} {a : Nat} {b : Byte} {c : Host.Cell} :
    c ∈ Memory.put a b m ↔ c = (a, b) ∨ c ∈ m := by
  induction m with
  | nil => simp [Memory.put]
  | cons d m ih =>
    obtain ⟨k, e⟩ := d
    rw [Memory.put]
    split
    · simp
    · simp only [List.mem_cons, ih]; tauto

/-- A byte written is read back. -/
@[simp] theorem Memory.read_write_same (m : Memory) (a : Nat) (b : Byte) : (m.write a b).read a = b := by
  rw [Memory.write]
  split
  · simp [Memory.read_without_same, *]
  · exact Memory.read_put_same b fun c hc => (Memory.mem_without.mp hc).2

/-- A write leaves every other byte. -/
theorem Memory.read_write_other (m : Memory) {a a' : Nat} (b : Byte) (h : a' ≠ a) : (m.write a b).read a' = m.read a' := by
  rw [Memory.write]
  split
  · exact Memory.read_without_other m h
  · rw [Memory.read_put_other _ b h, Memory.read_without_other m h]

/-- The canonical form, cell by cell. -/
theorem Memory.wf_cons {k : Nat} {b : Byte} {m : Memory} :
    Memory.wf ((k, b) :: m) = true ↔ b ≠ unlistedByte ∧ (∀ c ∈ m, k < c.1) ∧ Memory.wf m = true := by
  simp [Memory.wf, and_assoc]

theorem Memory.without_wf {m : Memory} (h : m.wf = true) (a : Nat) : (m.without a).wf = true := by
  induction m with
  | nil => rfl
  | cons c m ih =>
    obtain ⟨k, b⟩ := c
    obtain ⟨hb, hk, hm⟩ := Memory.wf_cons.mp h
    by_cases hka : k = a
    · simpa [Memory.without, hka] using ih hm
    · have he : Memory.without ((k, b) :: m) a = (k, b) :: Memory.without m a := by simp [Memory.without, hka]
      rw [he]
      exact Memory.wf_cons.mpr ⟨hb, fun c hc => hk c (Memory.mem_without.mp hc).1, ih hm⟩

theorem Memory.put_wf {m : Memory} {a : Nat} {b : Byte} (h : m.wf = true) (hb : b ≠ unlistedByte)
    (ha : ∀ c ∈ m, c.1 ≠ a) : (Memory.put a b m).wf = true := by
  induction m with
  | nil => simp [Memory.put, Memory.wf, hb]
  | cons c m ih =>
    obtain ⟨k, d⟩ := c
    obtain ⟨hd, hk, hm⟩ := Memory.wf_cons.mp h
    have hka : k ≠ a := ha (k, d) (by simp)
    rw [Memory.put]
    split
    · rename_i hlt
      refine Memory.wf_cons.mpr ⟨hb, fun c hc => ?_, h⟩
      rcases List.mem_cons.mp hc with rfl | hc
      · exact hlt
      · exact hlt.trans (hk c hc)
    · rename_i hlt
      refine Memory.wf_cons.mpr ⟨hd, fun c hc => ?_, ih hm fun c hc => ha c (by simp [hc])⟩
      rcases Memory.mem_put.mp hc with rfl | hc
      · exact lt_of_le_of_ne (not_lt.mp hlt) hka
      · exact hk c hc

/-- A write keeps the canonical form. -/
theorem Memory.write_wf {m : Memory} (h : m.wf = true) (a : Nat) (b : Byte) : (m.write a b).wf = true := by
  rw [Memory.write]
  split
  · exact Memory.without_wf h a
  · exact Memory.put_wf (Memory.without_wf h a) ‹_› fun c hc => (Memory.mem_without.mp hc).2

/-- A write below the size keeps every listed address below it. -/
theorem Memory.write_below {m : Memory} {size a : Nat} (h : m.below size = true) (ha : a < size) (b : Byte) :
    (m.write a b).below size = true := by
  have hm : ∀ c ∈ m, c.1 < size := by simpa [Memory.below] using h
  suffices ∀ c ∈ m.write a b, c.1 < size by simpa [Memory.below] using this
  intro c hc
  rw [Memory.write] at hc
  split at hc
  · exact hm c (Memory.mem_without.mp hc).1
  · rcases Memory.mem_put.mp hc with rfl | hc
    · exact ha
    · exact hm c (Memory.mem_without.mp hc).1

/-! ### A run of bytes -/

theorem Memory.storeFrom_wf {m : Memory} (h : m.wf = true) (size base k : Nat) (bs : List Byte) :
    (Memory.storeFrom size base k bs m).wf = true := by
  induction bs generalizing k m with
  | nil => exact h
  | cons b bs ih => exact ih (Memory.write_wf h _ b) _

theorem Memory.storeFrom_below {m : Memory} {size : Nat} (h : m.below size = true) (hs : 0 < size) (base k : Nat)
    (bs : List Byte) : (Memory.storeFrom size base k bs m).below size = true := by
  induction bs generalizing k m with
  | nil => exact h
  | cons b bs ih => exact ih (Memory.write_below h (Nat.mod_lt _ hs) b) _

/-- Bytes outside the stored run are left alone. -/
theorem Memory.read_storeFrom_outside (size base : Nat) {a k : Nat} {bs : List Byte} (m : Memory)
    (h : ∀ i, i < bs.length → a ≠ (base + (k + i)) % size) : (Memory.storeFrom size base k bs m).read a = m.read a := by
  induction bs generalizing k m with
  | nil => rfl
  | cons b bs ih =>
    rw [Memory.storeFrom, ih, Memory.read_write_other _ b (by simpa using h 0 (by simp))]
    intro i hi
    have := h (i + 1) (by simpa using hi)
    rwa [show k + (i + 1) = k + 1 + i by omega] at this

/-- Two offsets less than `size` apart have different addresses. -/
theorem offset_address_inj {size base i j : Nat} (h : (base + i) % size = (base + j) % size) (hi : i < j + size)
    (hj : j < i + size) : i = j := by
  have hm : i % size = j % size := Nat.ModEq.add_left_cancel' base h
  rcases Nat.le_total i j with hij | hij
  · have : (j - i) % size = 0 := (Nat.ModEq.symm hm |> fun h => Nat.sub_mod_eq_zero_of_mod_eq h)
    rw [Nat.mod_eq_of_lt (by omega)] at this; omega
  · have : (i - j) % size = 0 := Nat.sub_mod_eq_zero_of_mod_eq hm
    rw [Nat.mod_eq_of_lt (by omega)] at this; omega

/-- A stored byte is read back, when the run is no longer than the memory. -/
theorem Memory.read_storeFrom_inside (size base : Nat) {k i : Nat} {bs : List Byte} (m : Memory) (hi : i < bs.length)
    (hs : bs.length ≤ size) : (Memory.storeFrom size base k bs m).read ((base + (k + i)) % size) = bs[i] := by
  induction bs generalizing k i m with
  | nil => simp at hi
  | cons b bs ih =>
    rw [Memory.storeFrom]
    cases i with
    | zero =>
      rw [Memory.read_storeFrom_outside]
      · simp
      · intro j hj heq
        have hl : j + 1 < size := lt_of_lt_of_le (by simpa using hj) hs
        have := offset_address_inj heq (by omega) (by omega)
        omega
    | succ i =>
      have := ih (k := k + 1) (i := i) (m.write ((base + k) % size) b) (by simpa using hi) (by simp at hs; omega)
      rw [show k + (i + 1) = k + 1 + i by omega, this]
      simp

/-- A run is stored piece by piece. -/
theorem Memory.storeFrom_append (size base k : Nat) (bs cs : List Byte) (m : Memory) :
    Memory.storeFrom size base k (bs ++ cs) m =
      Memory.storeFrom size base (k + bs.length) cs (Memory.storeFrom size base k bs m) := by
  induction bs generalizing k m with
  | nil => simp [Memory.storeFrom]
  | cons b bs ih =>
    simp only [List.cons_append, Memory.storeFrom, ih, List.length_cons]
    congr 1; omega

end Sys2Proof.Machine
end

