-- ==== Sys2Proof/Laws/State.lean ====
section
/-!
SUPPORT. What each update of State leaves and writes, field by field, so that no later proof unfolds one; and the reset
state's fields.
-/

namespace Sys2Proof.Machine

/-! ### complete: completion writes STATUS and nothing else (60_exceptions.md R203) -/

@[simp] theorem State.complete_cfg (s : State) (c : Completion) : (s.complete c).cfg = s.cfg := rfl
@[simp] theorem State.complete_status (s : State) (c : Completion) : (s.complete c).status = s.status.complete c := rfl
@[simp] theorem State.complete_cur (s : State) (c : Completion) : (s.complete c).cur = s.cur := rfl
@[simp] theorem State.complete_len (s : State) (c : Completion) : (s.complete c).len = s.len := rfl
@[simp] theorem State.complete_cnt (s : State) (c : Completion) : (s.complete c).cnt = s.cnt := rfl
@[simp] theorem State.complete_v0 (s : State) (c : Completion) : (s.complete c).v0 = s.v0 := rfl
@[simp] theorem State.complete_v1 (s : State) (c : Completion) : (s.complete c).v1 = s.v1 := rfl
@[simp] theorem State.complete_v2 (s : State) (c : Completion) : (s.complete c).v2 = s.v2 := rfl
@[simp] theorem State.complete_v3 (s : State) (c : Completion) : (s.complete c).v3 = s.v3 := rfl
@[simp] theorem State.complete_r0 (s : State) (c : Completion) : (s.complete c).r0 = s.r0 := rfl
@[simp] theorem State.complete_r1 (s : State) (c : Completion) : (s.complete c).r1 = s.r1 := rfl
@[simp] theorem State.complete_r2 (s : State) (c : Completion) : (s.complete c).r2 = s.r2 := rfl
@[simp] theorem State.complete_r3 (s : State) (c : Completion) : (s.complete c).r3 = s.r3 := rfl
@[simp] theorem State.complete_romF (s : State) (c : Completion) : (s.complete c).romF = s.romF := rfl
@[simp] theorem State.complete_romC (s : State) (c : Completion) : (s.complete c).romC = s.romC := rfl
@[simp] theorem State.complete_maskRom (s : State) (c : Completion) : (s.complete c).maskRom = s.maskRom := rfl
@[simp] theorem State.complete_mem (s : State) (c : Completion) : (s.complete c).mem = s.mem := rfl
@[simp] theorem State.complete_pending (s : State) (c : Completion) : (s.complete c).pending = s.pending := rfl
@[simp] theorem State.complete_lastRead (s : State) (c : Completion) : (s.complete c).lastRead = s.lastRead := rfl
@[simp] theorem State.complete_memSize (s : State) (c : Completion) : (s.complete c).memSize = s.memSize := rfl
@[simp] theorem State.complete_curA (s : State) (c : Completion) : (s.complete c).curA = s.curA := rfl
@[simp] theorem State.complete_lenA (s : State) (c : Completion) : (s.complete c).lenA = s.lenA := rfl
@[simp] theorem State.complete_windowAddr (s : State) (c : Completion) (j : Nat) : (s.complete c).windowAddr j = s.windowAddr j := rfl
@[simp] theorem State.complete_windowByte (s : State) (c : Completion) (j : Nat) : (s.complete c).windowByte j = s.windowByte j := rfl

/-! ### storeBytes: a store writes buffer memory and nothing else (00_scope.md R11) -/

@[simp] theorem State.storeBytes_cfg (s : State) (k : Nat) (bs : List Byte) : (s.storeBytes k bs).cfg = s.cfg := rfl
@[simp] theorem State.storeBytes_status (s : State) (k : Nat) (bs : List Byte) : (s.storeBytes k bs).status = s.status := rfl
@[simp] theorem State.storeBytes_cur (s : State) (k : Nat) (bs : List Byte) : (s.storeBytes k bs).cur = s.cur := rfl
@[simp] theorem State.storeBytes_len (s : State) (k : Nat) (bs : List Byte) : (s.storeBytes k bs).len = s.len := rfl
@[simp] theorem State.storeBytes_cnt (s : State) (k : Nat) (bs : List Byte) : (s.storeBytes k bs).cnt = s.cnt := rfl
@[simp] theorem State.storeBytes_v0 (s : State) (k : Nat) (bs : List Byte) : (s.storeBytes k bs).v0 = s.v0 := rfl
@[simp] theorem State.storeBytes_v1 (s : State) (k : Nat) (bs : List Byte) : (s.storeBytes k bs).v1 = s.v1 := rfl
@[simp] theorem State.storeBytes_v2 (s : State) (k : Nat) (bs : List Byte) : (s.storeBytes k bs).v2 = s.v2 := rfl
@[simp] theorem State.storeBytes_v3 (s : State) (k : Nat) (bs : List Byte) : (s.storeBytes k bs).v3 = s.v3 := rfl
@[simp] theorem State.storeBytes_r0 (s : State) (k : Nat) (bs : List Byte) : (s.storeBytes k bs).r0 = s.r0 := rfl
@[simp] theorem State.storeBytes_r1 (s : State) (k : Nat) (bs : List Byte) : (s.storeBytes k bs).r1 = s.r1 := rfl
@[simp] theorem State.storeBytes_r2 (s : State) (k : Nat) (bs : List Byte) : (s.storeBytes k bs).r2 = s.r2 := rfl
@[simp] theorem State.storeBytes_r3 (s : State) (k : Nat) (bs : List Byte) : (s.storeBytes k bs).r3 = s.r3 := rfl
@[simp] theorem State.storeBytes_romF (s : State) (k : Nat) (bs : List Byte) : (s.storeBytes k bs).romF = s.romF := rfl
@[simp] theorem State.storeBytes_romC (s : State) (k : Nat) (bs : List Byte) : (s.storeBytes k bs).romC = s.romC := rfl
@[simp] theorem State.storeBytes_maskRom (s : State) (k : Nat) (bs : List Byte) : (s.storeBytes k bs).maskRom = s.maskRom := rfl
@[simp] theorem State.storeBytes_mem (s : State) (k : Nat) (bs : List Byte) : (s.storeBytes k bs).mem = Memory.storeFrom s.memSize s.curA k bs s.mem := rfl
@[simp] theorem State.storeBytes_pending (s : State) (k : Nat) (bs : List Byte) : (s.storeBytes k bs).pending = s.pending := rfl
@[simp] theorem State.storeBytes_lastRead (s : State) (k : Nat) (bs : List Byte) : (s.storeBytes k bs).lastRead = s.lastRead := rfl
@[simp] theorem State.storeBytes_memSize (s : State) (k : Nat) (bs : List Byte) : (s.storeBytes k bs).memSize = s.memSize := rfl
@[simp] theorem State.storeBytes_curA (s : State) (k : Nat) (bs : List Byte) : (s.storeBytes k bs).curA = s.curA := rfl
@[simp] theorem State.storeBytes_lenA (s : State) (k : Nat) (bs : List Byte) : (s.storeBytes k bs).lenA = s.lenA := rfl
@[simp] theorem State.storeBytes_windowAddr (s : State) (k : Nat) (bs : List Byte) (j : Nat) : (s.storeBytes k bs).windowAddr j = s.windowAddr j := rfl

/-! ### moved: a successful memory command writes CNT, CUR and LEN (20_memory.md R58) -/

@[simp] theorem State.moved_cfg (s : State) (c : Nat) : (s.moved c).cfg = s.cfg := rfl
@[simp] theorem State.moved_status (s : State) (c : Nat) : (s.moved c).status = s.status := rfl
@[simp] theorem State.moved_cur (s : State) (c : Nat) : (s.moved c).cur = BitVec.ofNat 32 (s.windowAddr c) := rfl
@[simp] theorem State.moved_len (s : State) (c : Nat) : (s.moved c).len = BitVec.ofNat 32 (s.lenA - c) := rfl
@[simp] theorem State.moved_cnt (s : State) (c : Nat) : (s.moved c).cnt = BitVec.ofNat 32 c := rfl
@[simp] theorem State.moved_v0 (s : State) (c : Nat) : (s.moved c).v0 = s.v0 := rfl
@[simp] theorem State.moved_v1 (s : State) (c : Nat) : (s.moved c).v1 = s.v1 := rfl
@[simp] theorem State.moved_v2 (s : State) (c : Nat) : (s.moved c).v2 = s.v2 := rfl
@[simp] theorem State.moved_v3 (s : State) (c : Nat) : (s.moved c).v3 = s.v3 := rfl
@[simp] theorem State.moved_r0 (s : State) (c : Nat) : (s.moved c).r0 = s.r0 := rfl
@[simp] theorem State.moved_r1 (s : State) (c : Nat) : (s.moved c).r1 = s.r1 := rfl
@[simp] theorem State.moved_r2 (s : State) (c : Nat) : (s.moved c).r2 = s.r2 := rfl
@[simp] theorem State.moved_r3 (s : State) (c : Nat) : (s.moved c).r3 = s.r3 := rfl
@[simp] theorem State.moved_romF (s : State) (c : Nat) : (s.moved c).romF = s.romF := rfl
@[simp] theorem State.moved_romC (s : State) (c : Nat) : (s.moved c).romC = s.romC := rfl
@[simp] theorem State.moved_maskRom (s : State) (c : Nat) : (s.moved c).maskRom = s.maskRom := rfl
@[simp] theorem State.moved_mem (s : State) (c : Nat) : (s.moved c).mem = s.mem := rfl
@[simp] theorem State.moved_pending (s : State) (c : Nat) : (s.moved c).pending = s.pending := rfl
@[simp] theorem State.moved_lastRead (s : State) (c : Nat) : (s.moved c).lastRead = s.lastRead := rfl
@[simp] theorem State.moved_memSize (s : State) (c : Nat) : (s.moved c).memSize = s.memSize := rfl

/-! ### setResults: the result registers (10_state.md R28) -/

@[simp] theorem State.setResults_cfg (s : State) (r : Quad Word) : (s.setResults r).cfg = s.cfg := rfl
@[simp] theorem State.setResults_status (s : State) (r : Quad Word) : (s.setResults r).status = s.status := rfl
@[simp] theorem State.setResults_cur (s : State) (r : Quad Word) : (s.setResults r).cur = s.cur := rfl
@[simp] theorem State.setResults_len (s : State) (r : Quad Word) : (s.setResults r).len = s.len := rfl
@[simp] theorem State.setResults_cnt (s : State) (r : Quad Word) : (s.setResults r).cnt = s.cnt := rfl
@[simp] theorem State.setResults_v0 (s : State) (r : Quad Word) : (s.setResults r).v0 = s.v0 := rfl
@[simp] theorem State.setResults_v1 (s : State) (r : Quad Word) : (s.setResults r).v1 = s.v1 := rfl
@[simp] theorem State.setResults_v2 (s : State) (r : Quad Word) : (s.setResults r).v2 = s.v2 := rfl
@[simp] theorem State.setResults_v3 (s : State) (r : Quad Word) : (s.setResults r).v3 = s.v3 := rfl
@[simp] theorem State.setResults_r0 (s : State) (r : Quad Word) : (s.setResults r).r0 = r.s1 := rfl
@[simp] theorem State.setResults_r1 (s : State) (r : Quad Word) : (s.setResults r).r1 = r.s2 := rfl
@[simp] theorem State.setResults_r2 (s : State) (r : Quad Word) : (s.setResults r).r2 = r.s3 := rfl
@[simp] theorem State.setResults_r3 (s : State) (r : Quad Word) : (s.setResults r).r3 = r.s4 := rfl
@[simp] theorem State.setResults_romF (s : State) (r : Quad Word) : (s.setResults r).romF = s.romF := rfl
@[simp] theorem State.setResults_romC (s : State) (r : Quad Word) : (s.setResults r).romC = s.romC := rfl
@[simp] theorem State.setResults_maskRom (s : State) (r : Quad Word) : (s.setResults r).maskRom = s.maskRom := rfl
@[simp] theorem State.setResults_mem (s : State) (r : Quad Word) : (s.setResults r).mem = s.mem := rfl
@[simp] theorem State.setResults_pending (s : State) (r : Quad Word) : (s.setResults r).pending = s.pending := rfl
@[simp] theorem State.setResults_lastRead (s : State) (r : Quad Word) : (s.setResults r).lastRead = s.lastRead := rfl
@[simp] theorem State.setResults_memSize (s : State) (r : Quad Word) : (s.setResults r).memSize = s.memSize := rfl
@[simp] theorem State.setResults_curA (s : State) (r : Quad Word) : (s.setResults r).curA = s.curA := rfl
@[simp] theorem State.setResults_lenA (s : State) (r : Quad Word) : (s.setResults r).lenA = s.lenA := rfl
@[simp] theorem State.setResults_windowAddr (s : State) (r : Quad Word) (j : Nat) : (s.setResults r).windowAddr j = s.windowAddr j := rfl
@[simp] theorem State.setResults_windowByte (s : State) (r : Quad Word) (j : Nat) : (s.setResults r).windowByte j = s.windowByte j := rfl

/-! ### setR0: the result register R0 (10_state.md R28) -/

@[simp] theorem State.setR0_cfg (s : State) (w : Word) : (s.setR0 w).cfg = s.cfg := rfl
@[simp] theorem State.setR0_status (s : State) (w : Word) : (s.setR0 w).status = s.status := rfl
@[simp] theorem State.setR0_cur (s : State) (w : Word) : (s.setR0 w).cur = s.cur := rfl
@[simp] theorem State.setR0_len (s : State) (w : Word) : (s.setR0 w).len = s.len := rfl
@[simp] theorem State.setR0_cnt (s : State) (w : Word) : (s.setR0 w).cnt = s.cnt := rfl
@[simp] theorem State.setR0_v0 (s : State) (w : Word) : (s.setR0 w).v0 = s.v0 := rfl
@[simp] theorem State.setR0_v1 (s : State) (w : Word) : (s.setR0 w).v1 = s.v1 := rfl
@[simp] theorem State.setR0_v2 (s : State) (w : Word) : (s.setR0 w).v2 = s.v2 := rfl
@[simp] theorem State.setR0_v3 (s : State) (w : Word) : (s.setR0 w).v3 = s.v3 := rfl
@[simp] theorem State.setR0_r0 (s : State) (w : Word) : (s.setR0 w).r0 = w := rfl
@[simp] theorem State.setR0_r1 (s : State) (w : Word) : (s.setR0 w).r1 = s.r1 := rfl
@[simp] theorem State.setR0_r2 (s : State) (w : Word) : (s.setR0 w).r2 = s.r2 := rfl
@[simp] theorem State.setR0_r3 (s : State) (w : Word) : (s.setR0 w).r3 = s.r3 := rfl
@[simp] theorem State.setR0_romF (s : State) (w : Word) : (s.setR0 w).romF = s.romF := rfl
@[simp] theorem State.setR0_romC (s : State) (w : Word) : (s.setR0 w).romC = s.romC := rfl
@[simp] theorem State.setR0_maskRom (s : State) (w : Word) : (s.setR0 w).maskRom = s.maskRom := rfl
@[simp] theorem State.setR0_mem (s : State) (w : Word) : (s.setR0 w).mem = s.mem := rfl
@[simp] theorem State.setR0_pending (s : State) (w : Word) : (s.setR0 w).pending = s.pending := rfl
@[simp] theorem State.setR0_lastRead (s : State) (w : Word) : (s.setR0 w).lastRead = s.lastRead := rfl
@[simp] theorem State.setR0_memSize (s : State) (w : Word) : (s.setR0 w).memSize = s.memSize := rfl
@[simp] theorem State.setR0_curA (s : State) (w : Word) : (s.setR0 w).curA = s.curA := rfl
@[simp] theorem State.setR0_lenA (s : State) (w : Word) : (s.setR0 w).lenA = s.lenA := rfl
@[simp] theorem State.setR0_windowAddr (s : State) (w : Word) (j : Nat) : (s.setR0 w).windowAddr j = s.windowAddr j := rfl
@[simp] theorem State.setR0_windowByte (s : State) (w : Word) (j : Nat) : (s.setR0 w).windowByte j = s.windowByte j := rfl

/-! ### resetRegisters: the reset input (70_reset_and_hazards.md R230) -/

@[simp] theorem State.resetRegisters_cfg (s : State) : s.resetRegisters.cfg = s.cfg := rfl
@[simp] theorem State.resetRegisters_status (s : State) : s.resetRegisters.status = ⟨.ok, false⟩ := rfl
@[simp] theorem State.resetRegisters_cur (s : State) : s.resetRegisters.cur = 0 := rfl
@[simp] theorem State.resetRegisters_len (s : State) : s.resetRegisters.len = 0 := rfl
@[simp] theorem State.resetRegisters_cnt (s : State) : s.resetRegisters.cnt = 0 := rfl
@[simp] theorem State.resetRegisters_v0 (s : State) : s.resetRegisters.v0 = 0 := rfl
@[simp] theorem State.resetRegisters_v1 (s : State) : s.resetRegisters.v1 = 0 := rfl
@[simp] theorem State.resetRegisters_v2 (s : State) : s.resetRegisters.v2 = 0 := rfl
@[simp] theorem State.resetRegisters_v3 (s : State) : s.resetRegisters.v3 = 0 := rfl
@[simp] theorem State.resetRegisters_r0 (s : State) : s.resetRegisters.r0 = 0 := rfl
@[simp] theorem State.resetRegisters_r1 (s : State) : s.resetRegisters.r1 = 0 := rfl
@[simp] theorem State.resetRegisters_r2 (s : State) : s.resetRegisters.r2 = 0 := rfl
@[simp] theorem State.resetRegisters_r3 (s : State) : s.resetRegisters.r3 = 0 := rfl
@[simp] theorem State.resetRegisters_romF (s : State) : s.resetRegisters.romF = s.romF := rfl
@[simp] theorem State.resetRegisters_romC (s : State) : s.resetRegisters.romC = s.romC := rfl
@[simp] theorem State.resetRegisters_maskRom (s : State) : s.resetRegisters.maskRom = s.maskRom := rfl
@[simp] theorem State.resetRegisters_mem (s : State) : s.resetRegisters.mem = s.mem := rfl
@[simp] theorem State.resetRegisters_pending (s : State) : s.resetRegisters.pending = s.pending := rfl
@[simp] theorem State.resetRegisters_lastRead (s : State) : s.resetRegisters.lastRead = s.lastRead := rfl
@[simp] theorem State.resetRegisters_memSize (s : State) : s.resetRegisters.memSize = s.memSize := rfl

/-! ### STATUS -/

@[simp] theorem Status.complete_code (st : Status) (c : Completion) : (st.complete c).code = c := rfl

@[simp] theorem Status.complete_sticky (st : Status) (c : Completion) :
    (st.complete c).sticky = (st.sticky || c != .ok) := rfl

theorem Status.complete_ok (st : Status) : st.complete .ok = { st with code := .ok } := by
  cases st; simp [Status.complete]

theorem Status.complete_error (st : Status) {c : Completion} (h : c ≠ .ok) : st.complete c = ⟨c, true⟩ := by
  simp [Status.complete, h]

/-! ### The reset state (10_state.md R37) -/

@[simp] theorem State.reset_tablesFixed : State.reset.tablesFixed := ⟨rfl, rfl, rfl⟩

end Sys2Proof.Machine
end

