-- ==== Sys2Proof/Laws/Ops.lean ====
section
/-!
SUPPORT. The shared operations, said once each: how a command ends, the bounds checks, where the window stands after a
memory command, what a store leaves and what a read of the window depends on.
-/

namespace Sys2Proof.Machine

/-! ### How a command ends -/

@[simp] theorem State.finish_ok (s t : State) : s.finish (.ok t) = .next (t.complete .ok) := rfl

@[simp] theorem State.finish_error (s : State) (e : Completion) : s.finish (.error e) = .next (s.complete e) := rfl

/-- A command ends in one of two ways: all its writes committed with OK, or STATUS alone written. -/
theorem State.finish_cases {s t : State} {body : Except Completion State} (h : s.finish body = .next t) :
    (∃ u, body = .ok u ∧ t = u.complete .ok) ∨ ∃ e, body = .error e ∧ t = s.complete e := by
  cases body with
  | ok u => exact .inl ⟨u, rfl, by simpa using h.symm⟩
  | error e => exact .inr ⟨e, rfl, by simpa using h.symm⟩

theorem State.finish_completes (s : State) (body : Except Completion State) : ∃ t, s.finish body = .next t := by
  cases body <;> simp

@[simp] theorem except_bind_ok {α β : Type} (a : α) (f : α → Except Completion β) : (Except.ok a >>= f) = f a := rfl

@[simp] theorem except_bind_error {α β : Type} (e : Completion) (f : α → Except Completion β) :
    ((Except.error e : Except Completion α) >>= f) = .error e := rfl

/-- A body that binds to a state either stopped at its first part or went on from it. -/
theorem except_bind_cases {α β : Type} {x : Except Completion α} {f : α → Except Completion β} {r : Except Completion β}
    (h : (x >>= f) = r) : (∃ a, x = .ok a ∧ f a = r) ∨ ∃ e, x = .error e ∧ r = .error e := by
  cases x with
  | ok a => exact .inl ⟨a, rfl, h⟩
  | error e => exact .inr ⟨e, rfl, h.symm⟩

/-! ### Bounds checks (20_memory.md R56, R57) -/

theorem State.need_of_le {s : State} {n : Nat} (h : n ≤ s.lenA) : s.need n = .ok () := by
  simp [State.need, Nat.not_lt.mpr h]

theorem State.need_of_lt {s : State} {n : Nat} (h : s.lenA < n) : s.need n = .error .insufficientBuffer := by
  simp [State.need, h]

theorem State.haveBytes_of_le {s : State} {n : Nat} (h : n ≤ s.lenA) : s.haveBytes n = .ok () := by
  rw [State.haveBytes, if_neg (by omega), if_neg (by omega)]

theorem State.haveBytes_of_empty {s : State} {n : Nat} (hn : 0 < n) (h : s.lenA = 0) :
    s.haveBytes n = .error .insufficientBuffer := by
  rw [State.haveBytes, if_pos ⟨hn, h⟩]

theorem State.haveBytes_of_short {s : State} {n : Nat} (h0 : 0 < s.lenA) (h : s.lenA < n) :
    s.haveBytes n = .error .truncatedInput := by
  rw [State.haveBytes, if_neg (by omega), if_pos h]

theorem State.need_cases (s : State) (n : Nat) :
    (s.need n = .ok () ∧ n ≤ s.lenA) ∨ (s.need n = .error .insufficientBuffer ∧ s.lenA < n) := by
  rcases Nat.lt_or_ge s.lenA n with h | h
  · exact .inr ⟨need_of_lt h, h⟩
  · exact .inl ⟨need_of_le h, h⟩

theorem State.haveBytes_cases (s : State) (n : Nat) :
    (s.haveBytes n = .ok () ∧ n ≤ s.lenA) ∨ (s.haveBytes n = .error .insufficientBuffer ∧ s.lenA = 0) ∨
      (s.haveBytes n = .error .truncatedInput ∧ 0 < s.lenA ∧ s.lenA < n) := by
  rcases Nat.lt_or_ge s.lenA n with h | h
  · rcases Nat.eq_zero_or_pos s.lenA with h0 | h0
    · exact .inr (.inl ⟨haveBytes_of_empty (by omega) h0, h0⟩)
    · exact .inr (.inr ⟨haveBytes_of_short h0 h, h0, h⟩)
  · exact .inl ⟨haveBytes_of_le h, h⟩

/-! ### Where the window stands -/

theorem State.memSize_pos (s : State) : 0 < s.memSize := Nat.two_pow_pos _

theorem State.memSize_le (s : State) : s.memSize ≤ 2 ^ 32 :=
  Nat.pow_le_pow_right (by decide) (by have := s.cfg.addrW.isLt; omega)

theorem State.curA_lt (s : State) : s.curA < s.memSize := Nat.mod_lt _ s.memSize_pos

theorem State.lenA_lt (s : State) : s.lenA < s.memSize := Nat.mod_lt _ s.memSize_pos

theorem State.windowAddr_lt (s : State) (k : Nat) : s.windowAddr k < s.memSize := Nat.mod_lt _ s.memSize_pos

/-- A number below the size of memory fits a register and is not changed by ADDR_W truncation. -/
theorem State.toNat_ofNat_of_lt {s : State} {a : Nat} (h : a < s.memSize) : (BitVec.ofNat 32 a).toNat = a := by
  have := s.memSize_le
  rw [BitVec.toNat_ofNat, Nat.mod_eq_of_lt (by omega)]

@[simp] theorem State.moved_curA (s : State) (c : Nat) : (s.moved c).curA = s.windowAddr c := by
  simp only [State.curA, State.moved_cur, State.moved_memSize]
  rw [toNat_ofNat_of_lt (s.windowAddr_lt c), Nat.mod_eq_of_lt (s.windowAddr_lt c)]

@[simp] theorem State.moved_lenA (s : State) (c : Nat) : (s.moved c).lenA = s.lenA - c := by
  have h : s.lenA - c < s.memSize := by have := s.lenA_lt; omega
  simp only [State.lenA, State.moved_len, State.moved_memSize]
  simp only [State.lenA] at h
  rw [toNat_ofNat_of_lt h, Nat.mod_eq_of_lt h]

/-- Offsets count on after a memory command. -/
@[simp] theorem State.moved_windowAddr (s : State) (c k : Nat) : (s.moved c).windowAddr k = s.windowAddr (c + k) := by
  simp only [State.windowAddr, State.moved_curA, State.moved_memSize, Nat.mod_add_mod, Nat.add_assoc]

@[simp] theorem State.moved_windowByte (s : State) (c k : Nat) : (s.moved c).windowByte k = s.windowByte (c + k) := by
  simp [State.windowByte]

theorem State.windowAddr_inj {s : State} {i j : Nat} (h : s.windowAddr i = s.windowAddr j) (hi : i ≤ s.lenA)
    (hj : j ≤ s.lenA) : i = j := by
  have := s.lenA_lt
  exact offset_address_inj h (by omega) (by omega)

/-! ### Stores -/

theorem State.storeBytes_read_inside {s : State} {k i : Nat} {bs : List Byte} (hi : i < bs.length)
    (h : bs.length ≤ s.lenA) : (s.storeBytes k bs).mem.read (s.windowAddr (k + i)) = bs[i] :=
  Memory.read_storeFrom_inside _ _ _ hi (by have := s.lenA_lt; omega)

theorem State.storeBytes_read_outside {s : State} {a k : Nat} {bs : List Byte}
    (h : ∀ i, i < bs.length → a ≠ s.windowAddr (k + i)) : (s.storeBytes k bs).mem.read a = s.mem.read a :=
  Memory.read_storeFrom_outside _ _ _ h

/-- The bytes stored are the bytes of the window afterwards. -/
theorem State.storeBytes_windowByte {s : State} {i : Nat} {bs : List Byte} (hi : i < bs.length)
    (h : bs.length ≤ s.lenA) : (s.storeBytes 0 bs).windowByte i = bs[i] := by
  have := storeBytes_read_inside (k := 0) hi h
  simpa [State.windowByte] using this

theorem State.storeBytes_append (s : State) (k : Nat) (bs cs : List Byte) :
    s.storeBytes k (bs ++ cs) = (s.storeBytes k bs).storeBytes (k + bs.length) cs := by
  simp only [State.storeBytes, Memory.storeFrom_append]; rfl

/-- A store after a memory command of `c` bytes is a store `c` bytes further on. -/
theorem Memory.storeFrom_shift (size base c k : Nat) (bs : List Byte) (m : Memory) :
    Memory.storeFrom size ((base + c) % size) k bs m = Memory.storeFrom size base (c + k) bs m := by
  induction bs generalizing k m with
  | nil => rfl
  | cons b bs ih => simp only [Memory.storeFrom, ih, Nat.mod_add_mod, Nat.add_assoc]

theorem State.moved_storeBytes_mem (s : State) (c k : Nat) (bs : List Byte) :
    ((s.moved c).storeBytes k bs).mem = (s.storeBytes (c + k) bs).mem := by
  simp only [storeBytes_mem, moved_memSize, moved_curA, moved_mem]
  exact Memory.storeFrom_shift _ _ _ _ _ _

/-! ### Reads -/

@[simp] theorem State.windowBytes_length (s : State) (k n : Nat) : (s.windowBytes k n).length = n := by
  simp [State.windowBytes]

@[simp] theorem leBytes_length (n : Nat) (v : Word) : (leBytes n v).length = n := by simp [leBytes]

/-- What is read of the window depends on the bytes read only. -/
theorem State.windowBytes_congr {s t : State} {j k n : Nat} (h : ∀ i, i < n → s.windowByte (j + i) = t.windowByte (k + i)) :
    s.windowBytes j n = t.windowBytes k n := by
  simp only [State.windowBytes]
  exact List.map_congr_left fun i hi => h i (List.mem_range.mp hi)

theorem State.memRead_congr {s t : State} {j k n : Nat} (h : ∀ i, i < n → s.windowByte (j + i) = t.windowByte (k + i)) :
    s.memRead j n = t.memRead k n := by
  rw [State.memRead, windowBytes_congr h, State.memRead]

end Sys2Proof.Machine
end

