-- ==== Sys2Proof/Laws/Quad.lean ====
section
/-!
SUPPORT. The quad codecs' parts: byte-lengths and the values they fit, little-endian fields, the masks, headers and the
decode tables.
-/

namespace Sys2Proof.Machine

/-! ### Byte-lengths (41_byte_length.md R100, R101) -/

theorem blenF_pos (v : Word) : 1 ≤ (blenF v).val := by
  unfold blenF; split_ifs <;> decide

theorem blenF_fits (v : Word) : v.toNat < 256 ^ (blenF v).val := by
  have := v.isLt
  unfold blenF
  split_ifs <;> simp <;> omega

/-- blenC is defined exactly on the compact range, and then its value fits and its length is at most 3. -/
theorem blenC_of_le {v : Word} (h : v.toNat ≤ 0xFFFFFF) :
    ∃ n, blenC v = some n ∧ n.val ≤ 3 ∧ v.toNat < 256 ^ n.val := by
  unfold blenC
  rw [if_neg (by simp [compactMax]; omega)]
  split_ifs
  · exact ⟨0, rfl, by decide, by simp; omega⟩
  · exact ⟨1, rfl, by decide, by simp; omega⟩
  · exact ⟨2, rfl, by decide, by simp; omega⟩
  · exact ⟨3, rfl, by decide, by simp; omega⟩

theorem blenC_of_gt {v : Word} (h : 0xFFFFFF < v.toNat) : blenC v = none := by
  rw [blenC, if_pos (by simpa [compactMax] using h)]

/-- rangeC (44_quad_compact.md R150) passes exactly when each of the four lengths is defined. -/
theorem lensC_ok_iff {v : Quad Word} {l : Quad Len} :
    lensC v = .ok l ↔
      blenC v.s1 = some l.s1 ∧ blenC v.s2 = some l.s2 ∧ blenC v.s3 = some l.s3 ∧ blenC v.s4 = some l.s4 := by
  obtain ⟨a, b, c, d⟩ := l
  unfold lensC
  split
  · simp_all
  · rename_i h
    simp only [reduceCtorEq, false_iff]
    rintro ⟨h1, h2, h3, h4⟩
    exact h _ _ _ _ h1 h2 h3 h4

theorem lensC_cases (v : Quad Word) : (∃ l, lensC v = .ok l) ∨ lensC v = .error .valueOutOfRange := by
  unfold lensC
  split <;> simp

/-! ### Little-endian fields (20_memory.md R52) -/

theorem leValue_cons_toNat (b : Byte) (bs : List Byte) :
    (leValue (b :: bs)).toNat = ((leValue bs).toNat * 256 + b.toNat) % 2 ^ 32 := by
  have hb : b.toNat < 2 ^ 8 := b.isLt
  have hd : 2 ^ 8 ∣ (leValue bs).toNat <<< 8 % 2 ^ 32 := by
    rw [Nat.shiftLeft_eq]
    exact (Nat.dvd_mod_iff (by decide)).mpr (Nat.dvd_mul_left _ _)
  obtain ⟨q, hq⟩ := hd
  have hx : (leValue bs).toNat * 2 ^ 8 % 2 ^ 32 = 2 ^ 8 * q := by rw [← Nat.shiftLeft_eq, hq]
  simp only [leValue, BitVec.toNat_or, BitVec.toNat_shiftLeft, BitVec.toNat_setWidth, hq]
  rw [Nat.mod_eq_of_lt (a := b.toNat) (by omega), ← Nat.two_pow_add_eq_or_of_lt hb]
  omega

/-- Up to four bytes give a value below 256 to their number. -/
theorem leValue_lt {bs : List Byte} (h : bs.length ≤ 4) : (leValue bs).toNat < 256 ^ bs.length := by
  induction bs with
  | nil => simp [leValue]
  | cons b bs ih =>
    have hb : b.toNat < 256 := b.isLt
    have := ih (by simp at h; omega)
    rw [leValue_cons_toNat, List.length_cons, Nat.pow_succ]
    have h4 : 256 ^ bs.length * 256 ≤ 2 ^ 32 := by
      have : 256 ^ bs.length ≤ 256 ^ 3 := Nat.pow_le_pow_right (by decide) (by simp at h; omega)
      omega
    rw [Nat.mod_eq_of_lt (by omega)]
    omega

theorem leBytes_succ (n : Nat) (v : Word) : leBytes (n + 1) v = v.extractLsb' 0 8 :: leBytes n (v >>> 8) := by
  simp only [leBytes, List.range_succ_eq_map, List.map_cons, List.map_map, Nat.mul_zero]
  congr 1
  refine List.map_congr_left fun i _ => ?_
  apply BitVec.eq_of_toNat_eq
  simp only [Function.comp, BitVec.extractLsb'_toNat, BitVec.toNat_ushiftRight]
  rw [← Nat.shiftRight_add]
  congr 2
  omega

/-- A value's low bytes, put together again, are the value cut to them. -/
theorem leValue_leBytes (n : Nat) (v : Word) (h : n ≤ 4) : (leValue (leBytes n v)).toNat = v.toNat % 256 ^ n := by
  have hl := leValue_lt (bs := leBytes n v) (by simpa using h)
  induction n generalizing v with
  | zero => simp [leBytes, leValue, Nat.mod_one]
  | succ n ih =>
    have hr := ih (v >>> 8) (by omega) (leValue_lt (by simp; omega))
    have hb : (v.extractLsb' 0 8).toNat = v.toNat % 256 := by simp
    have hs : (v >>> 8).toNat = v.toNat / 256 := by simp [Nat.shiftRight_eq_div_pow]
    have hlt : v.toNat / 256 % 256 ^ n < 256 ^ n := Nat.mod_lt _ (by positivity)
    have h4 : 256 ^ n ≤ 256 ^ 3 := Nat.pow_le_pow_right (by decide) (by omega)
    rw [leBytes_succ, leValue_cons_toNat, hr, hs, hb, Nat.mod_eq_of_lt (by omega), Nat.pow_succ, Nat.mul_comm (256 ^ n),
      Nat.mod_mul]
    omega

theorem leValue_leBytes_of_fits {n : Nat} {v : Word} (h : n ≤ 4) (hv : v.toNat < 256 ^ n) :
    leValue (leBytes n v) = v := by
  apply BitVec.eq_of_toNat_eq
  rw [leValue_leBytes n v h, Nat.mod_eq_of_lt hv]

theorem State.memRead_lt (s : State) (j : Nat) (n : Len) : (s.memRead j n.val).toNat < 256 ^ n.val := by
  have := leValue_lt (bs := s.windowBytes j n.val) (by simp; omega)
  simpa [State.memRead] using this

/-! ### MASK (10_state.md R32) -/

theorem maskContents_toNat (n : Len) : (maskContents.get n).toNat = 2 ^ (8 * n.val) - 1 := by
  revert n; decide

/-- The mask leaves a field of its own width as it is. -/
theorem mask_fits {w : Word} {n : Len} (h : w.toNat < 256 ^ n.val) : w &&& maskContents.get n = w := by
  apply BitVec.eq_of_toNat_eq
  rw [BitVec.toNat_and, maskContents_toNat, Nat.and_two_pow_sub_one_eq_mod, Nat.mod_eq_of_lt]
  rwa [Nat.pow_mul]

theorem State.unpack_eq_memRead {s : State} (h : s.tablesFixed) (j : Nat) (n : Len) : s.unpack j n = s.memRead j n.val := by
  rw [State.unpack, h.2.2, mask_fits (s.memRead_lt j n)]

/-! ### Headers and decode tables (30_encoding.md R83, 10_state.md R30, R31) -/

theorem accumulateHeader_toNat (a b c d : Fin 4) :
    (accumulateHeader [a.val, b.val, c.val, d.val]).toNat = 64 * a.val + 16 * b.val + 4 * c.val + d.val := by
  revert a b c d; decide

theorem tableOf_get_index (entry : Byte → Quad Len) (i : Fin 256) :
    (tableOf entry).get i = entry (BitVec.ofNat 8 i.val) := by
  simp only [tableOf, Vector.get, List.getElem_toArray, List.getElem_map, List.getElem_range, Fin.cast]

theorem tableOf_get (entry : Byte → Quad Len) (h : Byte) : (tableOf entry).get h.toFin = entry h := by
  have hw : BitVec.ofNat 8 h.toNat = h := by simp
  exact (tableOf_get_index entry h.toFin).trans (congrArg entry hw)

/-- The fields of a header byte over numbers. -/
theorem headerFields_toNat (h : Byte) :
    (headerFields h).map BitVec.toNat = ⟨h.toNat / 64 % 4, h.toNat / 16 % 4, h.toNat / 4 % 4, h.toNat % 4⟩ := by
  simp [headerFields, headerField, Quad.map, Nat.shiftRight_eq_div_pow]

theorem hdrF_toNat {l : Quad Len} :
    (hdrF l).toNat = 64 * (l.s1.val - 1) + 16 * (l.s2.val - 1) + 4 * (l.s3.val - 1) + (l.s4.val - 1) :=
  accumulateHeader_toNat ⟨l.s1.val - 1, by omega⟩ ⟨l.s2.val - 1, by omega⟩ ⟨l.s3.val - 1, by omega⟩
    ⟨l.s4.val - 1, by omega⟩

theorem hdrC_toNat {l : Quad Len} (h1 : l.s1.val ≤ 3) (h2 : l.s2.val ≤ 3) (h3 : l.s3.val ≤ 3) (h4 : l.s4.val ≤ 3) :
    (hdrC l).toNat = 64 * l.s1.val + 16 * l.s2.val + 4 * l.s3.val + l.s4.val :=
  accumulateHeader_toNat ⟨l.s1.val, by omega⟩ ⟨l.s2.val, by omega⟩ ⟨l.s3.val, by omega⟩ ⟨l.s4.val, by omega⟩

theorem entryF_val (h : Byte) :
    (entryF h).map Fin.val =
      ⟨h.toNat / 64 % 4 + 1, h.toNat / 16 % 4 + 1, h.toNat / 4 % 4 + 1, h.toNat % 4 + 1⟩ := by
  have := headerFields_toNat h
  simp only [Quad.map, Quad.mk.injEq] at this ⊢
  simp [entryF, Quad.map, lenOfFieldF, this]

theorem entryC_val (h : Byte) :
    (entryC h).map Fin.val = ⟨h.toNat / 64 % 4, h.toNat / 16 % 4, h.toNat / 4 % 4, h.toNat % 4⟩ := by
  have := headerFields_toNat h
  simp only [Quad.map, Quad.mk.injEq] at this ⊢
  simp [entryC, Quad.map, lenOfFieldC, this]

theorem quad_val_injective {l m : Quad Len} (h : l.map Fin.val = m.map Fin.val) : l = m := by
  obtain ⟨a, b, c, d⟩ := l
  obtain ⟨a', b', c', d'⟩ := m
  simp only [Quad.map, Quad.mk.injEq] at h ⊢
  exact ⟨Fin.ext h.1, Fin.ext h.2.1, Fin.ext h.2.2.1, Fin.ext h.2.2.2⟩

/-- The table gives back the lengths the header was built from. -/
theorem entryF_hdrF {l : Quad Len} (h1 : 1 ≤ l.s1.val) (h2 : 1 ≤ l.s2.val) (h3 : 1 ≤ l.s3.val) (h4 : 1 ≤ l.s4.val) :
    entryF (hdrF l) = l := by
  apply quad_val_injective
  rw [entryF_val, hdrF_toNat]
  simp only [Quad.map, Quad.mk.injEq]
  omega

theorem entryC_hdrC {l : Quad Len} (h1 : l.s1.val ≤ 3) (h2 : l.s2.val ≤ 3) (h3 : l.s3.val ≤ 3) (h4 : l.s4.val ≤ 3) :
    entryC (hdrC l) = l := by
  apply quad_val_injective
  rw [entryC_val, hdrC_toNat h1 h2 h3 h4]
  simp only [Quad.map, Quad.mk.injEq]
  omega

@[simp] theorem quadBytes_length (h : Byte) (l : Quad Len) (v : Quad Word) : (quadBytes h l v).length = quadSize l := by
  simp [quadBytes, quadSize]; omega

end Sys2Proof.Machine
end

