-- ==== Sys2Proof/Laws/Scan.lean ====
section
/-!
SUPPORT. Continuation-bit sequences: what scan() answers and when (42_varint.md R113), the value it accumulates (R112),
and that the canonical bytes of a value (R111) are a sequence that accumulates to it.
-/

namespace Sys2Proof.Machine

theorem continues_iff (b : Byte) : continues b = true ↔ 128 ≤ b.toNat := by
  have := b.isLt
  rw [continues, BitVec.getLsbD, Nat.testBit_eq_decide_div_mod_eq]
  simp; omega

theorem continues_false_iff (b : Byte) : continues b = false ↔ b.toNat < 128 := by
  have := continues_iff b
  cases h : continues b <;> simp_all

/-! ### The loop -/

/-- The loop stops at the first byte that does not continue. -/
theorem State.scanFrom_stops {s : State} {k m left : Nat} (acc : Word) (hm : m < left)
    (hc : ∀ i, i < m → continues (s.windowByte (k + i)) = true) (ht : continues (s.windowByte (k + m)) = false) :
    s.scanFrom k acc left = some ((s.windowBytes k (m + 1)).foldl accumulateGroup acc, k + m + 1) := by
  induction m generalizing k acc left with
  | zero =>
    obtain ⟨l, rfl⟩ : ∃ l, left = l + 1 := ⟨left - 1, by omega⟩
    simp only [Nat.add_zero] at ht
    simp [State.scanFrom, ht, State.windowBytes]
  | succ m ih =>
    obtain ⟨l, rfl⟩ : ∃ l, left = l + 1 := ⟨left - 1, by omega⟩
    have h0 : continues (s.windowByte k) = true := by simpa using hc 0 (by omega)
    have hs : s.windowBytes k (m + 1 + 1) = s.windowByte k :: s.windowBytes (k + 1) (m + 1) := by
      simp only [State.windowBytes, List.range_succ_eq_map (n := m + 1), List.map_cons, List.map_map, Nat.add_zero]
      congr 1
      exact List.map_congr_left fun i _ => by simp only [Function.comp]; congr 1; omega
    rw [State.scanFrom, if_pos h0, ih _ (by omega)]
    · rw [hs, List.foldl_cons]; congr 2; omega
    · intro i hi
      have := hc (i + 1) (by omega)
      rwa [show k + (i + 1) = k + 1 + i by omega] at this
    · rwa [show k + (m + 1) = k + 1 + m by omega] at ht

/-- The loop reaches the window's end when every byte continues. -/
theorem State.scanFrom_exhausts {s : State} {k left : Nat} (acc : Word)
    (hc : ∀ i, i < left → continues (s.windowByte (k + i)) = true) : s.scanFrom k acc left = none := by
  induction left generalizing k acc with
  | zero => rfl
  | succ l ih =>
    have h0 : continues (s.windowByte k) = true := by simpa using hc 0 (by omega)
    rw [State.scanFrom, if_pos h0]
    refine ih _ fun i hi => ?_
    have := hc (i + 1) (by omega)
    rwa [show k + (i + 1) = k + 1 + i by omega] at this

/-- The first `n` bytes of the window are one continuation-bit sequence (30_encoding.md R80). -/
def State.sequenceOf (s : State) (n : Nat) : Prop :=
  0 < n ∧ n ≤ s.lenA ∧ (∀ i, i + 1 < n → continues (s.windowByte i) = true) ∧ continues (s.windowByte (n - 1)) = false

/-- The accumulated value of the first `n` bytes (42_varint.md R112). -/
def State.accumulated (s : State) (n : Nat) : Word := (s.windowBytes 0 n).foldl accumulateGroup 0

theorem State.scan_of_sequence {s : State} {n : Nat} (h : s.sequenceOf n) : s.scan = .ok (s.accumulated n, n) := by
  obtain ⟨hn, hl, hc, ht⟩ := h
  obtain ⟨m, rfl⟩ : ∃ m, n = m + 1 := ⟨n - 1, by omega⟩
  have := s.scanFrom_stops (k := 0) 0 (by omega : m < s.lenA) (fun i hi => by simpa using hc i (by omega))
    (by simpa using ht)
  rw [State.scan, if_neg (by omega), this]
  simp [State.accumulated]

theorem State.scan_of_empty {s : State} (h : s.lenA = 0) : s.scan = .error .insufficientBuffer := by
  rw [State.scan, if_pos h]

theorem State.scan_of_unterminated {s : State} (h0 : 0 < s.lenA)
    (h : ∀ k, k < s.lenA → continues (s.windowByte k) = true) : s.scan = .error .truncatedInput := by
  rw [State.scan, if_neg (by omega), scanFrom_exhausts 0 fun i hi => by simpa using h i hi]

/-- scan() answers in one of three ways. -/
theorem State.scan_cases (s : State) :
    (∃ n, s.sequenceOf n ∧ s.scan = .ok (s.accumulated n, n)) ∨
      (s.lenA = 0 ∧ s.scan = .error .insufficientBuffer) ∨
      (0 < s.lenA ∧ (∀ k, k < s.lenA → continues (s.windowByte k) = true) ∧ s.scan = .error .truncatedInput) := by
  rcases Nat.eq_zero_or_pos s.lenA with h0 | h0
  · exact .inr (.inl ⟨h0, scan_of_empty h0⟩)
  by_cases h : ∃ k, k < s.lenA ∧ continues (s.windowByte k) = false
  · classical
    have hf := Nat.find_spec h
    have hseq : s.sequenceOf (Nat.find h + 1) := by
      refine ⟨by omega, hf.1, fun i hi => ?_, by simpa using hf.2⟩
      have := Nat.find_min h (m := i) (by omega)
      simp only [not_and, Bool.not_eq_false] at this
      exact this (by have := hf.1; omega)
    exact .inl ⟨_, hseq, scan_of_sequence hseq⟩
  · have hc : ∀ k, k < s.lenA → continues (s.windowByte k) = true := fun k hk => by
      by_contra hn
      exact h ⟨k, hk, by simpa using hn⟩
    exact .inr (.inr ⟨h0, hc, scan_of_unterminated h0 hc⟩)

/-! ### The accumulated value -/

theorem accumulateGroup_toNat (acc : Word) (b : Byte) :
    (accumulateGroup acc b).toNat = (acc.toNat * 128 + b.toNat % 128) % 2 ^ 32 := by
  have hb : b.toNat % 128 < 2 ^ 7 := by omega
  have hd : 2 ^ 7 ∣ acc.toNat <<< 7 % 2 ^ 32 := by
    rw [Nat.shiftLeft_eq]
    exact (Nat.dvd_mod_iff (by decide)).mpr (Nat.dvd_mul_left _ _)
  obtain ⟨q, hq⟩ := hd
  have hx : acc.toNat * 2 ^ 7 % 2 ^ 32 = 2 ^ 7 * q := by rw [← Nat.shiftLeft_eq, hq]
  simp only [accumulateGroup, BitVec.toNat_or, BitVec.toNat_shiftLeft, BitVec.toNat_setWidth, BitVec.extractLsb'_toNat,
    Nat.shiftRight_zero, hq]
  rw [Nat.mod_eq_of_lt (a := b.toNat % 2 ^ 7) (by omega), ← Nat.two_pow_add_eq_or_of_lt hb]
  omega

/-- Over numbers: the groups of bytes after an accumulator. -/
theorem foldl_accumulateGroup_toNat (bs : List Byte) (acc : Word) :
    (bs.foldl accumulateGroup acc).toNat =
      (bs.foldl (fun a b => a * 128 + b.toNat % 128) acc.toNat) % 2 ^ 32 := by
  induction bs generalizing acc with
  | nil => simp [Nat.mod_eq_of_lt acc.isLt]
  | cons b bs ih =>
    rw [List.foldl_cons, ih, accumulateGroup_toNat, List.foldl_cons]
    have key : ∀ (bs : List Byte) (x : Nat),
        bs.foldl (fun a b => a * 128 + b.toNat % 128) (x % 2 ^ 32) % 2 ^ 32 =
          bs.foldl (fun a b => a * 128 + b.toNat % 128) x % 2 ^ 32 := by
      intro bs
      induction bs with
      | nil => intro x; simp
      | cons c cs ihc =>
        intro x
        rw [List.foldl_cons, List.foldl_cons, ← ihc (x % 2 ^ 32 * 128 + _), ← ihc (x * 128 + _)]
        congr 2
        omega
    exact key bs _

/-! ### The canonical encoding -/

theorem vlen_cases (v : Word) :
    (vlen v = 1 ∧ v.toNat < 128) ∨ (vlen v = 2 ∧ 128 ≤ v.toNat ∧ v.toNat < 16384) ∨
      (vlen v = 3 ∧ 16384 ≤ v.toNat ∧ v.toNat < 2097152) ∨
      (vlen v = 4 ∧ 2097152 ≤ v.toNat ∧ v.toNat < 268435456) ∨ (vlen v = 5 ∧ 268435456 ≤ v.toNat) := by
  unfold vlen
  split_ifs <;> simp <;> omega

@[simp] theorem canonicalBytes_length (v : Word) : (canonicalBytes v).length = vlen v := by simp [canonicalBytes]

/-- A canonical byte over numbers: 128 for the continuation bit, and the group. -/
theorem canonicalByte_toNat (v : Word) (n i : Nat) :
    (canonicalByte v n i).toNat = (if i < n - 1 then 128 else 0) + v.toNat / 128 ^ (n - 1 - i) % 128 := by
  have h7 : v.toNat / 2 ^ (7 * (n - 1 - i)) % 2 ^ 7 < 2 ^ 7 := Nat.mod_lt _ (by decide)
  rw [canonicalByte, BitVec.toNat_append]
  simp only [BitVec.extractLsb'_toNat, BitVec.toNat_ushiftRight, Nat.shiftRight_eq_div_pow, Nat.pow_zero, Nat.div_one]
  rw [← Nat.shiftLeft_add_eq_or_of_lt h7, show (128 : Nat) = 2 ^ 7 by rfl, ← Nat.pow_mul]
  split <;> simp [*]

/-- All but the last canonical byte continue. -/
theorem continues_canonicalByte (v : Word) (n i : Nat) : continues (canonicalByte v n i) = decide (i < n - 1) := by
  have hm : v.toNat / 128 ^ (n - 1 - i) % 128 < 128 := Nat.mod_lt _ (by decide)
  by_cases h : i < n - 1
  · simp only [h, decide_true, continues_iff, canonicalByte_toNat]; simp
  · simp only [h, decide_false, continues_false_iff, canonicalByte_toNat]; simp [hm]

/-- The canonical bytes accumulate to the value. -/
theorem foldl_canonicalBytes (v : Word) : (canonicalBytes v).foldl accumulateGroup 0 = v := by
  apply BitVec.eq_of_toNat_eq
  have hv := v.isLt
  rw [foldl_accumulateGroup_toNat]
  rcases vlen_cases v with ⟨h, hb⟩ | ⟨h, hb⟩ | ⟨h, hb⟩ | ⟨h, hb⟩ | ⟨h, hb⟩ <;>
  · simp only [canonicalBytes, h, List.range_succ, List.range_zero, List.nil_append, List.cons_append, List.map_cons,
      List.map_nil, List.foldl_cons, List.foldl_nil, canonicalByte_toNat]
    simp
    omega

/-- A canonical encoding is never over-long (42_varint.md R117). -/
theorem canonicalByte_five_first (v : Word) : (canonicalByte v 5 0).toNat % 128 < 16 := by
  have hv := v.isLt
  rw [canonicalByte_toNat]
  simp
  omega

end Sys2Proof.Machine
end

