-- ==== Sys2Proof/Laws/Exec.lean ====
section
/-!
SUPPORT. What a command can do, said once over all of them: raise, write result registers only, store bytes at the start
of the window and move past them, or write result registers and move past the bytes it consumed.
-/

namespace Sys2Proof.Machine

/-- The ways a command from `s` can end in `t`. -/
inductive Effect (i : Instr) (s t : State) : Prop where
  /-- STATUS alone is written, with an error code. -/
  | raises (e : Completion) (he : e ≠ .ok) (h : t = s.complete e)
  /-- Result registers and STATUS. -/
  | computes (he : i.encodes = false) (hd : i.decodes = false) (r : Quad Word) (h : t = (s.setResults r).complete .ok)
  /-- Bytes stored in the window, CNT, CUR, LEN and STATUS. -/
  | encodes (he : i.encodes = true) (bs : List Byte) (hl : bs.length ≤ s.lenA)
      (h : t = ((s.storeBytes 0 bs).moved bs.length).complete .ok)
  /-- Result registers, CNT, CUR, LEN and STATUS. -/
  | decodes (hd : i.decodes = true) (r : Quad Word) (c : Nat) (hl : c ≤ s.lenA)
      (h : t = ((s.setResults r).moved c).complete .ok)

theorem Effect.of_r0 {i : Instr} {s t : State} (he : i.encodes = false) (hd : i.decodes = false) {w : Word}
    (h : t = (s.setR0 w).complete .ok) : Effect i s t := .computes he hd ⟨w, s.r1, s.r2, s.r3⟩ h

theorem Effect.of_r0_moved {i : Instr} {s t : State} (hd : i.decodes = true) {w : Word} {c : Nat} (hl : c ≤ s.lenA)
    (h : t = ((s.setR0 w).moved c).complete .ok) : Effect i s t := .decodes hd ⟨w, s.r1, s.r2, s.r3⟩ c hl h

/-- An encoder's body: the check, the store, the move. -/
theorem Effect.of_encode {i : Instr} {s t : State} (he : i.encodes = true) {n : Nat} {bs : List Byte}
    (hn : bs.length = n)
    (h : s.finish (do s.need n; .ok ((s.storeBytes 0 bs).moved n)) = .next t) : Effect i s t := by
  subst hn
  rcases s.need_cases bs.length with ⟨hk, hl⟩ | ⟨hk, -⟩
  · rw [hk] at h
    exact .encodes he bs hl (by simpa using h.symm)
  · rw [hk] at h
    exact .raises .insufficientBuffer (by decide) (by simpa using h.symm)

theorem Effect.of_decodeQuad {i : Instr} {s t : State} (hd : i.decodes = true) {rom : Vector (Quad Len) 256}
    (h : s.finish (s.decodeQuad rom) = .next t) : Effect i s t := by
  unfold State.decodeQuad at h
  rcases s.haveBytes_cases 1 with ⟨hk, -⟩ | ⟨hk, -⟩ | ⟨hk, -⟩ <;> rw [hk] at h
  · rcases s.haveBytes_cases (quadSize (rom.get (s.windowByte 0).toFin)) with ⟨hq, hl⟩ | ⟨hq, -⟩ | ⟨hq, -⟩ <;>
      simp only [except_bind_ok, hq, except_bind_error] at h
    · exact .decodes hd _ _ hl (by simpa using h.symm)
    · exact .raises .insufficientBuffer (by decide) (by simpa using h.symm)
    · exact .raises .truncatedInput (by decide) (by simpa using h.symm)
  · exact .raises .insufficientBuffer (by decide) (by simpa using h.symm)
  · exact .raises .truncatedInput (by decide) (by simpa using h.symm)

/-- A command over compact values: the range check, then the rest. -/
theorem Effect.of_lensC {i : Instr} {s t : State} {f : Quad Len → Except Completion State}
    (hf : ∀ l, lensC s.operands = .ok l → s.finish (f l) = .next t → Effect i s t)
    (h : s.finish (lensC s.operands >>= f) = .next t) : Effect i s t := by
  rcases lensC_cases s.operands with ⟨l, hl⟩ | hl
  · rw [hl] at h
    exact hf l hl (by simpa using h)
  · rw [hl] at h
    exact .raises .valueOutOfRange (by decide) (by simpa using h.symm)

theorem byteCount_cases (nb : BitVec 3) :
    (∃ n : Len, n.val = nb.toNat ∧ byteCount nb = .ok n) ∨ (4 < nb.toNat ∧ byteCount nb = .error .illegalCommand) := by
  unfold byteCount
  split
  · exact .inl ⟨⟨nb.toNat, by assumption⟩, rfl, rfl⟩
  · exact .inr ⟨by omega, rfl⟩

/-- Every command does one of these. -/
theorem exec_effect {i : Instr} {s t : State} (h : exec i s = .next t) : Effect i s t := by
  cases i with
  | blenF => exact .of_r0 rfl rfl (by simpa [exec, execBlenF] using h.symm)
  | blenC =>
    simp only [exec, execBlenC] at h
    split at h
    · exact .of_r0 rfl rfl (by simpa using h.symm)
    · exact .raises .valueOutOfRange (by decide) (by simpa using h.symm)
  | venc => exact Effect.of_encode rfl (canonicalBytes_length _) h
  | vdec =>
    simp only [exec, execVdec] at h
    rcases s.scan_cases with ⟨n, hs, hk⟩ | ⟨-, hk⟩ | ⟨-, -, hk⟩ <;> rw [hk] at h
    · exact .of_r0_moved rfl hs.2.1 (by simpa using h.symm)
    · exact .raises .insufficientBuffer (by decide) (by simpa using h.symm)
    · exact .raises .truncatedInput (by decide) (by simpa using h.symm)
  | vskip =>
    simp only [exec, execVskip] at h
    rcases s.scan_cases with ⟨n, hs, hk⟩ | ⟨-, hk⟩ | ⟨-, -, hk⟩ <;> rw [hk] at h
    · exact .of_r0_moved (w := s.r0) rfl hs.2.1 (show t = (s.moved n).complete .ok by simpa using h.symm)
    · exact .raises .insufficientBuffer (by decide) (by simpa using h.symm)
    · exact .raises .truncatedInput (by decide) (by simpa using h.symm)
  | qsizeF => exact .of_r0 rfl rfl (by simpa [exec, execQsizeF] using h.symm)
  | hencF => exact .of_r0 rfl rfl (by simpa [exec, execHencF] using h.symm)
  | hdecF => exact .computes rfl rfl _ (by simpa [exec, execHdecF] using h.symm)
  | qencF => exact Effect.of_encode rfl (quadBytes_length _ _ _) h
  | qdecF => exact Effect.of_decodeQuad rfl h
  | qsizeC =>
    exact Effect.of_lensC (fun l _ h => .of_r0 rfl rfl (by simpa using h.symm)) h
  | hencC =>
    exact Effect.of_lensC (fun l _ h => .of_r0 rfl rfl (by simpa using h.symm)) h
  | hdecC => exact .computes rfl rfl _ (by simpa [exec, execHdecC] using h.symm)
  | qencC => exact Effect.of_lensC (fun l _ h => Effect.of_encode rfl (quadBytes_length _ _ _) h) h
  | qdecC => exact Effect.of_decodeQuad rfl h
  | lepack nb =>
    simp only [exec, execLepack] at h
    rcases byteCount_cases nb with ⟨n, -, hn⟩ | ⟨-, hn⟩ <;> rw [hn] at h
    · exact Effect.of_encode rfl (leBytes_length _ _) (by simpa using h)
    · exact .raises .illegalCommand (by decide) (by simpa using h.symm)
  | leunpack nb =>
    simp only [exec, execLeunpack] at h
    rcases byteCount_cases nb with ⟨n, -, hn⟩ | ⟨-, hn⟩ <;> rw [hn] at h
    · rcases s.haveBytes_cases n.val with ⟨hk, hl⟩ | ⟨hk, -⟩ | ⟨hk, -⟩ <;>
        simp only [except_bind_ok, hk, except_bind_error] at h
      · exact .of_r0_moved rfl hl (by simpa using h.symm)
      · exact .raises .insufficientBuffer (by decide) (by simpa using h.symm)
      · exact .raises .truncatedInput (by decide) (by simpa using h.symm)
    · exact .raises .illegalCommand (by decide) (by simpa using h.symm)

end Sys2Proof.Machine
end

