-- ==== Sys2Proof/Laws/PerInstr.lean ====
section
/-! SUPPORT. Laws per instruction. DecodeEncode: a well-formed command's word decodes to it (30_encoding.md R70 to R74). -/

namespace Sys2Proof.Laws

/-- A well-formed command's word decodes to it. -/
def DecodeEncode.Statement (i : Instr) : Prop := i.wf = true → decode (encode i) = .ok i

theorem DecodeEncode.blenF : DecodeEncode.Statement .blenF := fun _ => by decide

theorem DecodeEncode.blenC : DecodeEncode.Statement .blenC := fun _ => by decide

theorem DecodeEncode.venc : DecodeEncode.Statement .venc := fun _ => by decide

theorem DecodeEncode.vdec : DecodeEncode.Statement .vdec := fun _ => by decide

theorem DecodeEncode.vskip : DecodeEncode.Statement .vskip := fun _ => by decide

theorem DecodeEncode.qsizeF : DecodeEncode.Statement .qsizeF := fun _ => by decide

theorem DecodeEncode.hencF : DecodeEncode.Statement .hencF := fun _ => by decide

theorem DecodeEncode.hdecF : DecodeEncode.Statement .hdecF := fun _ => by decide

theorem DecodeEncode.qencF : DecodeEncode.Statement .qencF := fun _ => by decide

theorem DecodeEncode.qdecF : DecodeEncode.Statement .qdecF := fun _ => by decide

theorem DecodeEncode.qsizeC : DecodeEncode.Statement .qsizeC := fun _ => by decide

theorem DecodeEncode.hencC : DecodeEncode.Statement .hencC := fun _ => by decide

theorem DecodeEncode.hdecC : DecodeEncode.Statement .hdecC := fun _ => by decide

theorem DecodeEncode.qencC : DecodeEncode.Statement .qencC := fun _ => by decide

theorem DecodeEncode.qdecC : DecodeEncode.Statement .qdecC := fun _ => by decide

theorem DecodeEncode.lepack (nb : BitVec 3) : DecodeEncode.Statement (.lepack nb) := by
  unfold DecodeEncode.Statement
  revert nb
  decide

theorem DecodeEncode.leunpack (nb : BitVec 3) : DecodeEncode.Statement (.leunpack nb) := by
  unfold DecodeEncode.Statement
  revert nb
  decide

end Sys2Proof.Laws
end

