-- ==== Sys2Proof/Tests/Slice0.lean ====
section
/-!
SUPPORT. Small tests: the well-formedness smoke test, words written out from the spec's encoding, and one step per
command, with the expected results of 95_test_vectors.md named beside each; and states that meet the hypotheses of the
statements.
-/

namespace Sys2Proof.Tests

open Sys2Proof.Machine Sys2Proof.Statements

/-! ### WellFormed refuses ill-formed terms (30_encoding.md R71, R73) -/

theorem test_wf_refuses_lepack_5 : (Instr.lepack 5).wf = false := by decide

theorem test_wf_refuses_leunpack_7 : (Instr.leunpack 7).wf = false := by decide

theorem test_wf_accepts_lepack_4 : (Instr.lepack 4).wf = true := by decide

/-! ### Words written out bit by bit: RES (21 bits) ++ NB (3 bits) ++ OPC (8 bits) -/

theorem test_decode_byte_length :
    decode (0b000000000000000000000#21 ++ 0b000#3 ++ 0b00000001#8) = .ok .blenF ∧
    decode (0b000000000000000000000#21 ++ 0b000#3 ++ 0b00000010#8) = .ok .blenC := by decide

theorem test_decode_varint :
    decode (0b000000000000000000000#21 ++ 0b000#3 ++ 0b00010000#8) = .ok .venc ∧
    decode (0b000000000000000000000#21 ++ 0b000#3 ++ 0b00010001#8) = .ok .vdec ∧
    decode (0b000000000000000000000#21 ++ 0b000#3 ++ 0b00010010#8) = .ok .vskip := by decide

theorem test_decode_quad_fixed :
    decode (0b000000000000000000000#21 ++ 0b000#3 ++ 0b00100000#8) = .ok .qsizeF ∧
    decode (0b000000000000000000000#21 ++ 0b000#3 ++ 0b00100001#8) = .ok .hencF ∧
    decode (0b000000000000000000000#21 ++ 0b000#3 ++ 0b00100010#8) = .ok .hdecF ∧
    decode (0b000000000000000000000#21 ++ 0b000#3 ++ 0b00100011#8) = .ok .qencF ∧
    decode (0b000000000000000000000#21 ++ 0b000#3 ++ 0b00100100#8) = .ok .qdecF := by decide

theorem test_decode_quad_compact :
    decode (0b000000000000000000000#21 ++ 0b000#3 ++ 0b00101000#8) = .ok .qsizeC ∧
    decode (0b000000000000000000000#21 ++ 0b000#3 ++ 0b00101001#8) = .ok .hencC ∧
    decode (0b000000000000000000000#21 ++ 0b000#3 ++ 0b00101010#8) = .ok .hdecC ∧
    decode (0b000000000000000000000#21 ++ 0b000#3 ++ 0b00101011#8) = .ok .qencC ∧
    decode (0b000000000000000000000#21 ++ 0b000#3 ++ 0b00101100#8) = .ok .qdecC := by decide

theorem test_decode_packer :
    decode (0b000000000000000000000#21 ++ 0b011#3 ++ 0b00110000#8) = .ok (.lepack 3) ∧
    decode (0b000000000000000000000#21 ++ 0b100#3 ++ 0b00110001#8) = .ok (.leunpack 4) := by decide

/-- 95_test_vectors.md L2-CMD-1 to L2-CMD-7 and L2-CMD-9. -/
theorem test_decode_refuses_illegal_words :
    decode 0x00000000 = .error .unknownOpcode ∧ decode 0x00000003 = .error .unknownOpcode ∧
    decode 0x00000101 = .error .countNotZero ∧ decode 0x00000800 = .error .reservedBits ∧
    decode 0x80000010 = .error .reservedBits ∧ decode 0x00000530 = .error .countTooLarge ∧
    decode 0x00000730 = .error .countTooLarge ∧ decode 0x0000012B = .error .countNotZero := by decide

/-- 95_test_vectors.md, the table of command words. -/
theorem test_encode_command_words :
    commands.map encode =
      [0x01, 0x02, 0x10, 0x11, 0x12, 0x20, 0x21, 0x22, 0x23, 0x24, 0x28, 0x29, 0x2A, 0x2B, 0x2C, 0x30, 0x31] ∧
    encode (.lepack 3) = 0x330 ∧ encode (.leunpack 4) = 0x431 := by decide

/-- The rows fix disjoint sets of words: no word matches two of them. -/
theorem test_opcode_rows_disjoint :
    opcodeTable.Pairwise (fun r t => r.pattern &&& (r.mask &&& t.mask) ≠ t.pattern &&& (r.mask &&& t.mask)) := by
  decide

/-! ### One step on a small state -/

/-- The reset state with operands, a window and bytes from its start on. -/
def start (v : Quad Word) (cur len : Word) (bytes : List Byte) : State :=
  { State.reset with
    v0 := v.s1, v1 := v.s2, v2 := v.s3, v3 := v.s4, cur := cur, len := len
    mem := Memory.storeFrom (2 ^ 32) cur.toNat 0 bytes [] }

/-- What a next state holds, absent where the answer is a stop. -/
def after {α : Type} (a : Host.Outcome State Fault Refusal) (f : State → α) : Option α :=
  match a with
  | .next t => some (f t)
  | .fault _ => none
  | .refused _ => none

/-- The step that a host write of the word to CMD is. -/
def cmd (w : Nat) (s : State) : Host.Outcome State Fault Refusal := step (s.withFetchWord 32 w)

/-- STATUS, CNT, CUR and LEN. -/
def window (s : State) : List Word := [s.status.toWord, s.cnt, s.cur, s.len]

/-- R0..R3. -/
def results (s : State) : List Word := [s.r0, s.r1, s.r2, s.r3]

/-- L2-BL-5. -/
theorem test_blenF_0x10000 :
    after (cmd 0x01 (start ⟨0x10000, 0, 0, 0⟩ 0 0 [])) (fun t => (t.r0, t.status.toWord)) = some (3, 0) := by decide

/-- L2-BL-15 and L2-BL-16. -/
theorem test_blenC_bounds :
    after (cmd 0x02 (start ⟨0xFFFFFF, 0, 0, 0⟩ 0 0 [])) (fun t => (t.r0, t.status.toWord)) = some (3, 0) ∧
    after (cmd 0x02 (start ⟨0x1000000, 0, 0, 0⟩ 0 0 [])) (fun t => (t.r0, t.status.toWord)) = some (0, 0x101) := by
  decide

/-- L2-V-6. -/
theorem test_venc_300 :
    after (cmd 0x10 (start ⟨300, 0, 0, 0⟩ 0x100 8 [])) (fun t => (t.mem, window t)) =
      some ([(0x100, 0x82), (0x101, 0x2C)], [0, 2, 0x102, 6]) := by decide

/-- L2-V-18. -/
theorem test_venc_short_window :
    after (cmd 0x10 (start ⟨0xFFFFFFFF, 0, 0, 0⟩ 0 4 [])) (fun t => (t.mem, window t)) =
      some ([], [0x103, 0, 0, 4]) := by decide

/-- L2-V-22. -/
theorem test_vdec_stops_at_terminator :
    after (cmd 0x11 (start ⟨0, 0, 0, 0⟩ 0 8 [0x82, 0x2C, 0x05])) (fun t => (t.r0, window t)) =
      some (300, [0, 2, 2, 6]) := by decide

/-- L2-V-25 (wrap32) and L2-V-32 (truncated). -/
theorem test_vdec_wrap_and_truncated :
    after (cmd 0x11 (start ⟨0, 0, 0, 0⟩ 0 5 [0x9F, 0xFF, 0xFF, 0xFF, 0x7F])) (fun t => (t.r0, window t)) =
      some (0xFFFFFFFF, [0, 5, 5, 0]) ∧
    after (cmd 0x11 (start ⟨0, 0, 0, 0⟩ 0 2 [0x81, 0x80])) (fun t => (t.r0, window t)) =
      some (0, [0x102, 0, 0, 2]) := by decide

/-- L2-V-35. -/
theorem test_vskip_leaves_r0 :
    after (cmd 0x12 (start ⟨0, 0, 0, 0⟩ 0 3 [0x82, 0x2C, 0x05])) (fun t => (t.r0, window t)) =
      some (0, [0, 2, 2, 1]) := by decide

/-- L2-QF-4. -/
theorem test_qsizeF :
    after (cmd 0x20 (start ⟨0x1000000, 0, 0xFFFFFF, 1⟩ 0 0 [])) (fun t => t.r0) = some 10 := by decide

/-- L2-QF-4 and L2-QF-2 (90_conflicts.md C1). -/
theorem test_hencF :
    after (cmd 0x21 (start ⟨0x1000000, 0, 0xFFFFFF, 1⟩ 0 0 [])) (fun t => t.r0) = some 0xC8 ∧
    after (cmd 0x21 (start ⟨1235, 123456, 1234567, 12345678⟩ 0 0 [])) (fun t => t.r0) = some 0x6A := by decide

/-- L2-QF-12. -/
theorem test_hdecF_ignores_upper_bits :
    after (cmd 0x22 (start ⟨0x16A, 0, 0, 0⟩ 0 0 [])) results = some [2, 3, 3, 3] := by decide

/-- L2-QF-15. -/
theorem test_qencF :
    after (cmd 0x23 (start ⟨0xFF, 0x100, 0xFFFF, 0x10000⟩ 0 17 [])) (fun t => (t.mem, window t)) =
      some ([(0, 0x16), (1, 0xFF), (3, 0x01), (4, 0xFF), (5, 0xFF), (8, 0x01)], [0, 9, 9, 8]) := by decide

/-- L2-QF-18. -/
theorem test_qencF_short_window :
    after (cmd 0x23 (start ⟨1235, 123456, 1234567, 12345678⟩ 0 11 [])) (fun t => (t.mem, window t)) =
      some ([], [0x103, 0, 0, 11]) := by decide

/-- L2-QF-19. -/
theorem test_qdecF :
    after (cmd 0x24 (start ⟨0, 0, 0, 0⟩ 0 12
        [0x6A, 0xD3, 0x04, 0x40, 0xE2, 0x01, 0x87, 0xD6, 0x12, 0x4E, 0x61, 0xBC])) (fun t => (results t, window t)) =
      some ([1235, 123456, 1234567, 12345678], [0, 12, 12, 0]) := by decide

/-- L2-QF-22. -/
theorem test_qdecF_truncated :
    after (cmd 0x24 (start ⟨0, 0, 0, 0⟩ 0 11
        [0x6A, 0xD3, 0x04, 0x40, 0xE2, 0x01, 0x87, 0xD6, 0x12, 0x4E, 0x61, 0xBC])) (fun t => (results t, window t)) =
      some ([0, 0, 0, 0], [0x102, 0, 0, 11]) := by decide

/-- L2-QC-2. -/
theorem test_qsizeC :
    after (cmd 0x28 (start ⟨1, 0, 0x100, 0xFFFFFF⟩ 0 0 [])) (fun t => t.r0) = some 7 := by decide

/-- L2-QC-2 and L2-QC-5. -/
theorem test_hencC :
    after (cmd 0x29 (start ⟨1, 0, 0x100, 0xFFFFFF⟩ 0 0 [])) (fun t => t.r0) = some 0x4B ∧
    after (cmd 0x29 (start ⟨0, 0, 0, 0x1000000⟩ 0 0 [])) (fun t => (t.r0, t.status.toWord)) = some (0, 0x101) := by
  decide

/-- L2-QC-7. -/
theorem test_hdecC : after (cmd 0x2A (start ⟨0x4B, 0, 0, 0⟩ 0 0 [])) results = some [1, 0, 2, 3] := by decide

/-- L2-QC-12. -/
theorem test_qencC :
    after (cmd 0x2B (start ⟨0, 1, 2, 3⟩ 0 13 [])) (fun t => (t.mem, window t)) =
      some ([(0, 0x15), (1, 1), (2, 2), (3, 3)], [0, 4, 4, 9]) := by decide

/-- L2-QC-14: ValueOutOfRange before InsufficientBuffer. -/
theorem test_qencC_range_before_space :
    after (cmd 0x2B (start ⟨0x1000000, 0, 0, 0⟩ 0 0 [])) (fun t => (t.mem, window t)) = some ([], [0x101, 0, 0, 0]) := by
  decide

/-- L2-QC-17. -/
theorem test_qdecC :
    after (cmd 0x2C (start ⟨0, 0, 0, 0⟩ 0x40 7 [0x4B, 0x01, 0x00, 0x01, 0xFF, 0xFF, 0xFF]))
        (fun t => (results t, window t)) = some ([1, 0, 0x100, 0xFFFFFF], [0, 7, 0x47, 0]) := by decide

/-- L2-QC-20. -/
theorem test_qdecC_empty_window :
    after (cmd 0x2C (start ⟨0, 0, 0, 0⟩ 0 0 [])) (fun t => (results t, window t)) =
      some ([0, 0, 0, 0], [0x103, 0, 0, 0]) := by decide

/-- L2-LE-1. -/
theorem test_lepack_3 :
    after (cmd 0x330 (start ⟨0x12345678, 0, 0, 0⟩ 0 4 [])) (fun t => (t.mem, window t)) =
      some ([(0, 0x78), (1, 0x56), (2, 0x34)], [0, 3, 3, 1]) := by decide

/-- L2-LE-4. -/
theorem test_lepack_0_empty_window :
    after (cmd 0x030 (start ⟨0x12345678, 0, 0, 0⟩ 0 0 [])) (fun t => (t.mem, window t)) = some ([], [0, 0, 0, 0]) := by
  decide

/-- L2-LE-6. -/
theorem test_leunpack_3 :
    after (cmd 0x331 (start ⟨0, 0, 0, 0⟩ 0 4 [0x78, 0x56, 0x34, 0x12])) (fun t => (t.r0, window t)) =
      some (0x345678, [0, 3, 3, 1]) := by decide

/-- L2-LE-9 and L2-LE-10. -/
theorem test_leunpack_errors :
    after (cmd 0x331 (start ⟨0, 0, 0, 0⟩ 0 2 [0x78, 0x56])) (fun t => (t.r0, window t)) = some (0, [0x102, 0, 0, 2]) ∧
    after (cmd 0x131 (start ⟨0, 0, 0, 0⟩ 0 0 [])) (fun t => (t.r0, window t)) = some (0, [0x103, 0, 0, 0]) := by decide

/-- A window at the top of the address space, and the largest LEN: the window goes on at address 0 (20_memory.md R53). -/
theorem test_window_wraps :
    after (cmd 0x12 (start ⟨0, 0, 0, 0⟩ 0xFFFFFFFF 0xFFFFFFFF [0x82, 0x2C])) window =
      some [0, 2, 1, 0xFFFFFFFD] := by decide

/-! ### Illegal words and the host's accesses -/

/-- L2-CMD-9: IllegalCommand before ValueOutOfRange. -/
theorem test_illegal_word :
    after (cmd 0x12B (start ⟨0x1000000, 0, 0, 0⟩ 0 8 [])) (fun t => (t.mem, window t)) = some ([], [0x104, 0, 0, 8]) := by
  decide

/-- L2-ST-2 and L2-ST-3, by steps of the host. -/
theorem test_status_write_one_to_clear :
    after (step { State.reset with status := ⟨.insufficientBuffer, true⟩, pending := [.regWrite .word 0x04 0x100] })
      (fun t => t.status.toWord) = some 0x003 ∧
    after (step { State.reset with status := ⟨.insufficientBuffer, true⟩, pending := [.regWrite .word 0x04 0x0FF] })
      (fun t => t.status.toWord) = some 0x103 := by decide

/-- 10_state.md R29: a halfword access is refused. -/
theorem test_halfword_access_refused :
    (match step { State.reset with pending := [.regRead .half 0x08] } with
     | .refused r => some r
     | _ => none) = some (.registerAccessNotAlignedWord .half 0x08) := by decide

/-! ### The host's two questions -/

theorem test_decodeTableWord : decodeTableWord 32 0x330 = some (.lepack 3) := by decide

/-- L2-LE-4 right after reset. -/
theorem test_reset_runs_a_command :
    after (step (State.reset.withFetchWord 32 0x30)) (fun t => (t.status.toWord, t.pending.length)) = some (0, 0) := by
  decide

/-! ### The hypotheses of the statements can be met -/

/-- The reset state with the host's next accesses. -/
def facing (accesses : List HostAccess) : State := { State.reset with pending := accesses }

/-- The reset state under VDEC_OVERLONG = `any` with 16 address bits, and a window with bytes. -/
def startAny (len : Word) (bytes : List Byte) : State :=
  { start ⟨0, 0, 0, 0⟩ 0 len bytes with cfg := { addrW := 16, vdecOverlong := .any } }

/-- A quad of values with slot lengths 2, 3, 3, 3 under either scheme (90_conflicts.md C1). -/
def sample : Quad Word := ⟨1235, 123456, 1234567, 12345678⟩

/-- Its fixed-slot and its compact encoding. -/
def sampleF : List Byte := [0x6A, 0xD3, 0x04, 0x40, 0xE2, 0x01, 0x87, 0xD6, 0x12, 0x4E, 0x61, 0xBC]

def sampleC : List Byte := [0xBF, 0xD3, 0x04, 0x40, 0xE2, 0x01, 0x87, 0xD6, 0x12, 0x4E, 0x61, 0xBC]

/-- LegalWordsAndIllegalOnes. -/
theorem witness_illegal_word :
    (decode 0x530).toOption = none ∧ (facing [.regWrite .word 0x00 0x530]).pending = .regWrite .word 0x00 0x530 :: [] := by
  decide

/-- OpcodeRowsAreUnambiguous. -/
theorem witness_row :
    decode 0x430 = .ok (.lepack 4) ∧ (Instr.lepack 0).row.accepts 0x430 = true ∧ (nbField 0x430).toNat ≤ 4 := by decide

/-- StepRunsDecodedCommand. -/
theorem witness_command :
    (facing [.regWrite .word 0x00 0x431, .reset]).pending = .regWrite .word 0x00 0x431 :: [.reset] ∧
    decode 0x431 = .ok (.leunpack 4) := by decide

/-- IdleStepChangesNothing. -/
theorem witness_idle : State.reset.pending = [] := rfl

/-- MemoryCommandsAfterReset, both outcomes. -/
theorem witness_memory_commands :
    ((Instr.lepack 0).wf = true ∧ (Instr.lepack 0).encodes = true) ∧ (Instr.qdecC.wf = true ∧ Instr.qdecC.decodes = true) := by
  decide

/-- ResetInputClearsRegistersOnly. -/
theorem witness_reset_input : (facing [.reset, .reset]).pending = .reset :: [.reset] := rfl

/-- HostReadsTheRegisterMap, at the first and the last register. -/
theorem witness_register_reads :
    ((0x00 : BitVec 8), (0 : Word)) ∈ registerMap (facing [.regRead .word 0x00]) ∧
    ((0x30 : BitVec 8), (7 : Word)) ∈ registerMap { facing [.regRead .word 0x30] with r3 := 7 } := by decide

/-- HostWritesTheRegisterMap, both clauses; with 16 address bits a word of 17 bits is cut. -/
theorem witness_register_writes :
    ((0x08 : BitVec 8), { startAny 0 [] with cur := 0x2345 }) ∈ writableMap (startAny 0 []) 0x12345 ∧
    (0x20 : BitVec 8) ∈ (writableMap State.reset 1).map Prod.fst ∧
    (0x10 : BitVec 8) ∈ ([0x10, 0x24, 0x28, 0x2C, 0x30] : List (BitVec 8)) :=
  ⟨.head _, by decide, by decide⟩

/-- OddRegisterAccessesRefused: each reason to refuse, and the first and last reserved offset. -/
theorem witness_odd_accesses :
    (AccessSize.half ≠ .word ∨ (0x08 : BitVec 8).toNat % 4 ≠ 0) ∧
    (AccessSize.word ≠ .word ∨ (0xFF : BitVec 8).toNat % 4 ≠ 0) ∧
    ((0x34 : BitVec 8).toNat % 4 = 0 ∧ 0x34 ≤ (0x34 : BitVec 8).toNat) ∧
    ((0xFC : BitVec 8).toNat % 4 = 0 ∧ 0x34 ≤ (0xFC : BitVec 8).toNat) := by decide

/-- HostReachesBufferMemory: the last address there is, and the first there is not. -/
theorem witness_buffer_bounds : 0xFFFF < (startAny 0 []).memSize ∧ (startAny 0 []).memSize ≤ 0x10000 := by decide

/-- StepKeepsInvariant: a state away from reset that meets the invariant and takes a step. -/
theorem witness_invariant :
    ((start ⟨300, 0, 0, 0⟩ 0xFFFFFFFF 2 [5]).withFetchWord 32 0x10).Inv ∧
    ∃ t, cmd 0x10 (start ⟨300, 0, 0, 0⟩ 0xFFFFFFFF 2 [5]) = .next t :=
  ⟨⟨⟨rfl, rfl, rfl⟩, by decide, by decide, by decide, by decide⟩, _, rfl⟩

/-- ErrorsChangeOnlyStatus, StickyRecordsFailures, StatusIsOutputOnly, CodesHaveTheirCauses and
CommandsKeepOperandsAndTables: a command can end with each code. -/
theorem witness_codes :
    (after (exec .blenC (start ⟨0x1000000, 0, 0, 0⟩ 0 0 [])) (fun t => t.status.code) = some .valueOutOfRange) ∧
    (after (exec .vskip (start ⟨0, 0, 0, 0⟩ 0 1 [0x80])) (fun t => t.status.code) = some .truncatedInput) ∧
    (after (exec .venc (start ⟨0x80, 0, 0, 0⟩ 0 1 [])) (fun t => t.status.code) = some .insufficientBuffer) ∧
    (after (exec .vdec (start ⟨0, 0, 0, 0⟩ 0 0 [])) (fun t => t.status.code) = some .insufficientBuffer) ∧
    (after (exec (.lepack 5) State.reset) (fun t => t.status.code) = some .illegalCommand) ∧
    (after (exec .blenF State.reset) (fun t => t.status.code) = some .ok) := by decide

/-- StickyRecordsFailures, its second clause, both ways. -/
theorem witness_sticky_cleared :
    after (step { facing [.reset] with status := ⟨.ok, true⟩ }) (fun t => t.status.sticky) = some false ∧
    after (step { facing [.regWrite .word 0x04 0x100] with status := ⟨.ok, true⟩ }) (fun t => t.status.sticky) =
      some false := by decide

/-- Every statement over `tablesFixed`: it holds right after reset, and in the small states of these tests. -/
theorem witness_tables : State.reset.tablesFixed ∧ ∀ v cur len bytes, (start v cur len bytes).tablesFixed :=
  ⟨⟨rfl, rfl, rfl⟩, fun _ _ _ _ => ⟨rfl, rfl, rfl⟩⟩

/-- WritesStayInTheWindow: a command that writes, and an address outside its window. -/
theorem witness_outside_window :
    (∃ t, exec (.lepack 2) (start ⟨5, 0, 0, 0⟩ 4 2 []) = .next t) ∧ ¬ (start ⟨5, 0, 0, 0⟩ 4 2 []).inWindow 6 := by
  refine ⟨⟨_, rfl⟩, ?_⟩
  rintro ⟨k, hk, ha⟩
  have hk : k < 2 := hk
  have ha : 6 = (4 + k) % 2 ^ 32 := ha
  omega

/-- OutcomeDependsOnTheWindowOnly: two states that differ right behind the window. -/
theorem witness_same_for_commands :
    (start ⟨0, 0, 0, 0⟩ 0 2 [0x82, 0x2C, 0x05]).sameForCommands (start ⟨0, 0, 0, 0⟩ 0 2 [0x82, 0x2C, 0x77]) ∧
    start ⟨0, 0, 0, 0⟩ 0 2 [0x82, 0x2C, 0x05] ≠ start ⟨0, 0, 0, 0⟩ 0 2 [0x82, 0x2C, 0x77] ∧
    ∃ t, exec .vdec (start ⟨0, 0, 0, 0⟩ 0 2 [0x82, 0x2C, 0x05]) = .next t := by
  refine ⟨⟨rfl, by decide⟩, fun h => ?_, _, rfl⟩
  have := congrArg State.mem h
  revert this
  decide

/-- MemoryCommandsMoveTheWindow and DecodersRepeat: a decoder that moves, and one that raises. -/
theorem witness_decoders :
    Instr.vdec.decodes = true ∧
    after (exec .vdec (start ⟨0, 0, 0, 0⟩ 3 2 [0x7F])) (fun t => (t.status.code, t.cnt)) = some (.ok, 1) ∧
    after (exec .vdec (start ⟨0, 0, 0, 0⟩ 3 1 [0xFF])) (fun t => (t.status.code, t.cnt)) = some (.truncatedInput, 0) := by
  decide

/-- BlenCResult, and the compact range of the other .C commands: the largest value in it, the least outside. -/
theorem witness_compact_range :
    (0xFFFFFF#32).toNat ≤ 0xFFFFFF ∧ 0xFFFFFF < (0x1000000#32).toNat ∧
    InCompactRange (start ⟨0xFFFFFF, 0, 0xFFFFFF, 1⟩ 0 0 []) ∧ ¬ InCompactRange (start ⟨0, 0, 0, 0x1000000⟩ 0 0 []) := by
  refine ⟨by decide, by decide, ⟨by decide, by decide, by decide, by decide⟩, fun h => ?_⟩
  exact absurd h.2.2.2 (by decide)

/-- VlenIsLeast, at a bound. -/
theorem witness_vlen : (1 : Nat) ≤ 2 ∧ (0x3FFF#32).toNat < 2 ^ (7 * 2) := by decide

/-- VencResult: room for exactly the encoding, and one byte less. -/
theorem witness_venc_room :
    vlen (start ⟨0x80, 0, 0, 0⟩ 0 2 []).v0 ≤ (start ⟨0x80, 0, 0, 0⟩ 0 2 []).lenA ∧
    (start ⟨0x80, 0, 0, 0⟩ 0 1 []).lenA < vlen (start ⟨0x80, 0, 0, 0⟩ 0 1 []).v0 := by decide

/-- The bound of R80's last clause, as a decidable one. -/
theorem sequence_of {s : State} {n : Nat} (h0 : 0 < n ∧ n ≤ s.lenA)
    (h : ∀ i, i < n - 1 → 128 ≤ (s.windowByte i).toNat) (hn : (s.windowByte (n - 1)).toNat < 128) : Sequence s n :=
  ⟨h0.1, h0.2, fun i hi => h i (by omega), hn⟩

/-- VdecResult and VskipResult: five bytes that stay below 2^32, five and six that do not, under both policies. -/
theorem witness_sequences :
    (Sequence (start ⟨0, 0, 0, 0⟩ 0 5 [0x8F, 0xFF, 0xFF, 0xFF, 0x7F]) 5 ∧
      ((start ⟨0, 0, 0, 0⟩ 0 5 [0x8F, 0xFF, 0xFF, 0xFF, 0x7F]).windowByte 0).toNat % 128 < 16) ∧
    (Sequence (start ⟨0, 0, 0, 0⟩ 0 6 [0x90, 0xFF, 0xFF, 0xFF, 0xFF, 0x7F]) 6 ∧
      (start ⟨0, 0, 0, 0⟩ 0 6 [0x90, 0xFF, 0xFF, 0xFF, 0xFF, 0x7F]).cfg.vdecOverlong = .wrap32) ∧
    (Sequence (startAny 5 [0x90, 0x80, 0x80, 0x80, 0x00]) 5 ∧
      (startAny 5 [0x90, 0x80, 0x80, 0x80, 0x00]).cfg.vdecOverlong = .any) :=
  ⟨⟨sequence_of (by decide) (by decide) (by decide), by decide⟩,
   ⟨sequence_of (by decide) (by decide) (by decide), rfl⟩, sequence_of (by decide) (by decide) (by decide), rfl⟩

/-- VdecResult and VskipResult: an empty window, and one whose single byte continues. -/
theorem witness_scan_errors :
    (start ⟨0, 0, 0, 0⟩ 0 0 []).lenA = 0 ∧
    (0 < (start ⟨0, 0, 0, 0⟩ 0 1 [0x80]).lenA ∧
      ∀ k, k < (start ⟨0, 0, 0, 0⟩ 0 1 [0x80]).lenA → 128 ≤ ((start ⟨0, 0, 0, 0⟩ 0 1 [0x80]).windowByte k).toNat) := by
  decide

/-- VskipResult's comparison with VDEC and VarintRoundTrip, under `any` too. -/
theorem witness_varint_round_trip :
    (∃ t, exec .vdec (startAny 5 [0x90, 0x80, 0x80, 0x80, 0x00]) = .next t) ∧
    ∃ t, exec .venc { startAny 5 [] with v0 := 0xFFFFFFFF } = .next t ∧ t.status.code = .ok :=
  ⟨⟨_, rfl⟩, _, rfl, by decide⟩

/-- QencFResult and QencCResult: room for exactly the quad, and one byte less. -/
theorem witness_quad_room :
    quadTotal (ofOperands byteLenF (start sample 0 12 [])) ≤ (start sample 0 12 []).lenA ∧
    (start sample 0 11 []).lenA < quadTotal (ofOperands byteLenF (start sample 0 11 [])) ∧
    quadTotal (ofOperands byteLenC (start sample 0 12 [])) ≤ (start sample 0 12 []).lenA ∧
    (start sample 0 11 []).lenA < quadTotal (ofOperands byteLenC (start sample 0 11 [])) := by decide

/-- QdecFResult: an empty window, one byte less than the quad, exactly the quad. -/
theorem witness_qdecF_windows :
    (start sample 0 0 sampleF).lenA = 0 ∧
    (0 < (start sample 0 11 sampleF).lenA ∧
      (start sample 0 11 sampleF).lenA < quadTotal (plusOne (fieldsOf ((start sample 0 11 sampleF).windowByte 0).toNat))) ∧
    quadTotal (plusOne (fieldsOf ((start sample 0 12 sampleF).windowByte 0).toNat)) ≤ (start sample 0 12 sampleF).lenA := by
  decide

/-- QdecCResult: the same, and the quad of one byte. -/
theorem witness_qdecC_windows :
    (start sample 0 0 sampleC).lenA = 0 ∧
    (0 < (start sample 0 11 sampleC).lenA ∧
      (start sample 0 11 sampleC).lenA < quadTotal (fieldsOf ((start sample 0 11 sampleC).windowByte 0).toNat)) ∧
    quadTotal (fieldsOf ((start sample 0 12 sampleC).windowByte 0).toNat) ≤ (start sample 0 12 sampleC).lenA ∧
    quadTotal (fieldsOf ((start sample 0 1 []).windowByte 0).toNat) ≤ (start sample 0 1 []).lenA := by decide

/-- FixedHeaderConsistency and CompactHeaderConsistency. -/
theorem witness_headers :
    (start sample 0 0 []).tablesFixed ∧ InCompactRange (start sample 0 0 []) ∧
    (∃ t, exec .hencF (start sample 0 0 []) = .next t) ∧ ∃ t, exec .hencC (start sample 0 0 []) = .next t :=
  ⟨⟨rfl, rfl, rfl⟩, ⟨by decide, by decide, by decide, by decide⟩, ⟨_, rfl⟩, _, rfl⟩

/-- FixedQuadRoundTrip and CompactQuadRoundTrip. -/
theorem witness_quad_round_trips :
    (start sample 0 12 []).tablesFixed ∧
    (∃ t q, exec .qencF (start sample 0 12 []) = .next t ∧ t.status.code = .ok ∧
      exec .qsizeF (start sample 0 12 []) = .next q) ∧
    ∃ t q, exec .qencC (start sample 0 12 []) = .next t ∧ t.status.code = .ok ∧
      exec .qsizeC (start sample 0 12 []) = .next q :=
  ⟨⟨rfl, rfl, rfl⟩, ⟨_, _, rfl, by decide, rfl⟩, _, _, rfl, by decide, rfl⟩

/-- LepackResult and LeunpackResult: the bounds of NB, and of the window for each clause. -/
theorem witness_packer :
    (0 : BitVec 3).toNat ≤ 4 ∧ (4 : BitVec 3).toNat ≤ 4 ∧ 4 < (5 : BitVec 3).toNat ∧ 4 < (7 : BitVec 3).toNat ∧
    (4 : BitVec 3).toNat ≤ (start sample 0 4 []).lenA ∧ (0 : BitVec 3).toNat ≤ (start sample 0 0 []).lenA ∧
    (start sample 0 3 []).lenA < (4 : BitVec 3).toNat ∧ 0 < (start sample 0 3 []).lenA ∧
    (0 < (1 : BitVec 3).toNat ∧ (start sample 0 0 []).lenA = 0) := by decide

/-- UnpackReturnsWhatPackWrote. -/
theorem witness_pack_then_unpack :
    (start sample 0 2 []).tablesFixed ∧
    ∃ t, exec (.lepack 1) (start sample 0 2 []) = .next t ∧ t.status.code = .ok :=
  ⟨⟨rfl, rfl, rfl⟩, _, rfl, by decide⟩

/-- QuadPayloadsArePacks, writes of QENC.F: its lengths and header, and the four LEPACK after that header. -/
theorem witness_payload_writesF :
    (ofOperands byteLenF (start sample 0 12 []) = ⟨2, 3, 3, 3⟩ ∧ headerOf (minusOne ⟨2, 3, 3, 3⟩) = 0x6A) ∧
    ∃ t p1 p2 p3 p4, exec .qencF (start sample 0 12 []) = .next t ∧ t.status.code = .ok ∧
      exec (.lepack 2) { movedOk (start sample 0 12 []) 1 with mem := Memory.write [] 0 0x6A } = .next p1 ∧
      exec (.lepack 3) { p1 with v0 := 123456 } = .next p2 ∧ exec (.lepack 3) { p2 with v0 := 1234567 } = .next p3 ∧
      exec (.lepack 3) { p3 with v0 := 12345678 } = .next p4 :=
  ⟨by decide, _, _, _, _, _, rfl, by decide, rfl, rfl, rfl, rfl⟩

/-- QuadPayloadsArePacks, writes of QENC.C: its lengths and header, and the four LEPACK after that header. -/
theorem witness_payload_writesC :
    (ofOperands byteLenC (start sample 0 12 []) = ⟨2, 3, 3, 3⟩ ∧ headerOf ⟨2, 3, 3, 3⟩ = 0xBF) ∧
    ∃ t p1 p2 p3 p4, exec .qencC (start sample 0 12 []) = .next t ∧ t.status.code = .ok ∧
      exec (.lepack 2) { movedOk (start sample 0 12 []) 1 with mem := Memory.write [] 0 0xBF } = .next p1 ∧
      exec (.lepack 3) { p1 with v0 := 123456 } = .next p2 ∧ exec (.lepack 3) { p2 with v0 := 1234567 } = .next p3 ∧
      exec (.lepack 3) { p3 with v0 := 12345678 } = .next p4 :=
  ⟨by decide, _, _, _, _, _, rfl, by decide, rfl, rfl, rfl, rfl⟩

/-- QuadPayloadsArePacks, reads of QDEC.F: its lengths, and the four LEUNPACK after the header. -/
theorem witness_payload_readsF :
    plusOne (fieldsOf ((start sample 0 12 sampleF).windowByte 0).toNat) = ⟨2, 3, 3, 3⟩ ∧
    ∃ t u1 u2 u3 u4, exec .qdecF (start sample 0 12 sampleF) = .next t ∧ t.status.code = .ok ∧
      exec (.leunpack 2) (movedOk (start sample 0 12 sampleF) 1) = .next u1 ∧ exec (.leunpack 3) u1 = .next u2 ∧
      exec (.leunpack 3) u2 = .next u3 ∧ exec (.leunpack 3) u3 = .next u4 :=
  ⟨by decide, _, _, _, _, _, rfl, by decide, rfl, rfl, rfl, rfl⟩

/-- QuadPayloadsArePacks, reads of QDEC.C: its lengths, and the four LEUNPACK after the header. -/
theorem witness_payload_readsC :
    fieldsOf ((start sample 0 12 sampleC).windowByte 0).toNat = ⟨2, 3, 3, 3⟩ ∧
    ∃ t u1 u2 u3 u4, exec .qdecC (start sample 0 12 sampleC) = .next t ∧ t.status.code = .ok ∧
      exec (.leunpack 2) (movedOk (start sample 0 12 sampleC) 1) = .next u1 ∧ exec (.leunpack 3) u1 = .next u2 ∧
      exec (.leunpack 3) u2 = .next u3 ∧ exec (.leunpack 3) u3 = .next u4 :=
  ⟨by decide, _, _, _, _, _, rfl, by decide, rfl, rfl, rfl, rfl⟩

end Sys2Proof.Tests
end

section
/-!
PROOFS. The host's accesses, said once each: which part of the machine's step an access is, what a register write
leaves, and the ways an access can end.
-/

namespace Sys2Proof.Machine

/-! ### The step on the host's next access -/

theorem step_of_pending {s : State} {a : HostAccess} {rest : List HostAccess} (h : s.pending = a :: rest) :
    step s = hostAccess a { s with pending := rest } := by
  simp only [step, hostStep, h]

theorem alignedWord_iff (size : AccessSize) (offset : BitVec 8) :
    alignedWord size offset = true ↔ size = .word ∧ offset.toNat % 4 = 0 := by
  simp [alignedWord]

theorem step_regRead_word {s : State} {offset : BitVec 8} {rest : List HostAccess}
    (h : s.pending = .regRead .word offset :: rest) (ha : offset.toNat % 4 = 0) :
    step s = .next { s with pending := rest, lastRead := some (.word (s.readReg offset)) } := by
  rw [step_of_pending h, hostAccess, hostRegRead, if_pos ((alignedWord_iff _ _).mpr ⟨rfl, ha⟩)]
  rfl

theorem step_regWrite_word {s : State} {offset : BitVec 8} {w : Word} {rest : List HostAccess}
    (h : s.pending = .regWrite .word offset w :: rest) (ha : offset.toNat % 4 = 0) (h0 : offset.toNat ≠ 0) :
    step s = .next (State.writeReg { s with pending := rest } offset w) := by
  rw [step_of_pending h, hostAccess, hostRegWrite, if_pos ((alignedWord_iff _ _).mpr ⟨rfl, ha⟩), if_neg h0]

theorem step_command {s : State} {w : Word} {rest : List HostAccess} (h : s.pending = .regWrite .word 0x00 w :: rest) :
    step s = runCommand w { s with pending := rest } := step_of_pending h

theorem runCommand_of_decode {w : Word} {i : Instr} (h : decode w = .ok i) (s : State) : runCommand w s = exec i s := by
  simp only [runCommand, h]

/-- A word written to CMD runs the command it names or completes with IllegalCommand (30_encoding.md R71). -/
theorem runCommand_cases {w : Word} {s t : State} (h : runCommand w s = .next t) :
    (∃ i, decode w = .ok i ∧ exec i s = .next t) ∨ t = s.complete .illegalCommand := by
  unfold runCommand at h
  split at h
  case h_1 i hi => exact .inl ⟨i, hi, h⟩
  case h_2 => exact .inr (by simpa using h.symm)

/-! ### Register writes (10_state.md R21) -/

/-- Only 0x08 sets CUR, and to ADDR_W bits of the word (10_state.md R24). -/
theorem State.writeReg_cur (s : State) (offset : BitVec 8) (w : Word) :
    (s.writeReg offset w).cur = s.cur ∨ (s.writeReg offset w).cur = s.truncAddr w := by
  unfold State.writeReg
  split
  case h_2 => exact .inr rfl
  all_goals exact .inl rfl

/-- Only 0x0C sets LEN, and to ADDR_W bits of the word (10_state.md R25). -/
theorem State.writeReg_len (s : State) (offset : BitVec 8) (w : Word) :
    (s.writeReg offset w).len = s.len ∨ (s.writeReg offset w).len = s.truncAddr w := by
  unfold State.writeReg
  split
  case h_3 => exact .inr rfl
  all_goals exact .inl rfl

@[simp] theorem State.writeReg_cfg (s : State) (offset : BitVec 8) (w : Word) : (s.writeReg offset w).cfg = s.cfg := by
  unfold State.writeReg; split <;> rfl

@[simp] theorem State.writeReg_mem (s : State) (offset : BitVec 8) (w : Word) : (s.writeReg offset w).mem = s.mem := by
  unfold State.writeReg; split <;> rfl

@[simp] theorem State.writeReg_romF (s : State) (offset : BitVec 8) (w : Word) :
    (s.writeReg offset w).romF = s.romF := by
  unfold State.writeReg; split <;> rfl

@[simp] theorem State.writeReg_romC (s : State) (offset : BitVec 8) (w : Word) :
    (s.writeReg offset w).romC = s.romC := by
  unfold State.writeReg; split <;> rfl

@[simp] theorem State.writeReg_maskRom (s : State) (offset : BitVec 8) (w : Word) :
    (s.writeReg offset w).maskRom = s.maskRom := by
  unfold State.writeReg; split <;> rfl

@[simp] theorem State.writeReg_memSize (s : State) (offset : BitVec 8) (w : Word) :
    (s.writeReg offset w).memSize = s.memSize := by
  simp [State.memSize]

theorem State.truncAddr_toNat_lt (s : State) (w : Word) : (s.truncAddr w).toNat < s.memSize := by
  have h : w.toNat % s.memSize < s.memSize := Nat.mod_lt _ s.memSize_pos
  rwa [State.truncAddr, toNat_ofNat_of_lt h]

/-- From 0x34 on the offsets are reserved: they read 0 (10_state.md R21). -/
theorem State.readReg_reserved (s : State) {offset : BitVec 8} (h : 0x34 ≤ offset.toNat) : s.readReg offset = 0 := by
  unfold State.readReg
  split
  case h_13 => rfl
  all_goals omega

/-- From 0x34 on the offsets are reserved: they ignore writes (10_state.md R21). -/
theorem State.writeReg_reserved (s : State) {offset : BitVec 8} (w : Word) (h : 0x34 ≤ offset.toNat) :
    s.writeReg offset w = s := by
  unfold State.writeReg
  split
  case h_8 => rfl
  all_goals omega

/-! ### The ways an access can end -/

/-- The ways the access `a` of the host can take `s` to `t`. -/
inductive AccessEffect (a : HostAccess) (s t : State) : Prop where
  /-- A read, of a register or of a byte of memory. -/
  | reads (d : HostData) (h : t = { s with lastRead := some d })
  /-- A write to CMD. -/
  | commands (w : Word) (ha : a = .regWrite .word 0x00 w) (h : runCommand w s = .next t)
  /-- A write to another register. -/
  | writesRegister (offset : BitVec 8) (w : Word) (ha : a = .regWrite .word offset w) (h : t = s.writeReg offset w)
  /-- A write of a byte of memory. -/
  | writesMemory (address : Nat) (b : Byte) (ha : a = .memWrite address b) (hlt : address < s.memSize)
      (h : t = { s with mem := s.mem.write address b })
  /-- The reset input. -/
  | resets (ha : a = .reset) (h : t = s.resetRegisters)

/-- Every access that does not stop the machine does one of these. -/
theorem hostAccess_effect {a : HostAccess} {s t : State} (h : hostAccess a s = .next t) : AccessEffect a s t := by
  cases a with
  | regRead size offset =>
    simp only [hostAccess, hostRegRead] at h
    split at h
    · exact .reads _ (by simpa using h.symm)
    · cases h
  | regWrite size offset w =>
    simp only [hostAccess, hostRegWrite] at h
    split at h
    · next ha =>
      obtain ⟨rfl, -⟩ := (alignedWord_iff _ _).mp ha
      split at h
      · next h0 =>
        obtain rfl : offset = 0x00 := BitVec.eq_of_toNat_eq h0
        exact .commands w rfl h
      · exact .writesRegister offset w rfl (by simpa using h.symm)
    · cases h
  | memRead address =>
    simp only [hostAccess, hostMemRead] at h
    split at h
    · exact .reads _ (by simpa using h.symm)
    · cases h
  | memWrite address b =>
    simp only [hostAccess, hostMemWrite] at h
    split at h
    · next hlt => exact .writesMemory address b rfl hlt (by simpa using h.symm)
    · cases h
  | reset => exact .resets rfl (by simpa [hostAccess] using h.symm)

/-- A step is idle or one of the host's accesses. -/
theorem step_cases {s t : State} (h : step s = .next t) :
    (s.pending = [] ∧ t = s) ∨ ∃ a rest, s.pending = a :: rest ∧ AccessEffect a { s with pending := rest } t := by
  cases hp : s.pending with
  | nil => exact .inl ⟨rfl, by simpa [step, hostStep, hp] using h.symm⟩
  | cons a rest => exact .inr ⟨a, rest, rfl, hostAccess_effect (step_of_pending hp ▸ h)⟩

end Sys2Proof.Machine
end

section
/-!
PROOFS. Frames: what a command does to STATUS, what no command writes, and that no step writes a table.
-/

namespace Sys2Proof.Machine

/-- STATUS after a command is the completion of the STATUS before with the command's code (60_exceptions.md R203). -/
theorem exec_status {i : Instr} {s t : State} (h : exec i s = .next t) :
    t.status = s.status.complete t.status.code := by
  cases exec_effect h with
  | raises e he h => simp [h]
  | computes he hd r h => simp [h]
  | encodes he bs hl h => simp [h]
  | decodes hd r c hl h => simp [h]

/-- Settles O22: of the four effects a command can have, none writes an operand, a table, a parameter or the host's
side. -/
theorem commandsKeepOperandsAndTables : Obligations.CommandsKeepOperandsAndTables := by
  intro i s t h
  cases exec_effect h with
  | raises e he h => simp [h]
  | computes he hd r h => simp [h]
  | encodes he bs hl h => simp [h]
  | decodes hd r c hl h => simp [h]

theorem runCommand_keeps_tables {w : Word} {s t : State} (h : runCommand w s = .next t) :
    t.romF = s.romF ∧ t.romC = s.romC ∧ t.maskRom = s.maskRom := by
  rcases runCommand_cases h with ⟨i, -, hi⟩ | rfl
  · obtain ⟨-, -, -, -, hF, hC, hM, -⟩ := commandsKeepOperandsAndTables i s t hi
    exact ⟨hF, hC, hM⟩
  · simp

/-- No step writes a table (10_state.md R30, R31, R32). -/
theorem step_keeps_tables {s t : State} (h : step s = .next t) :
    t.romF = s.romF ∧ t.romC = s.romC ∧ t.maskRom = s.maskRom := by
  rcases step_cases h with ⟨-, rfl⟩ | ⟨a, rest, -, ha⟩
  · simp
  cases ha with
  | reads d h => simp [h]
  | commands w ha h => simpa using runCommand_keeps_tables h
  | writesRegister offset w ha h => simp [h]
  | writesMemory address b ha hlt h => simp [h]
  | resets ha h => simp [h]

end Sys2Proof.Machine
end

section
/-!
PROOFS. The invariant: each update of the state keeps it, so each command and each host access does.
-/

namespace Sys2Proof.Machine

/-! ### Updates that write nothing the invariant speaks of -/

theorem State.Inv.complete {s : State} (hs : s.Inv) (c : Completion) : (s.complete c).Inv := hs

theorem State.Inv.setResults {s : State} (hs : s.Inv) (r : Quad Word) : (s.setResults r).Inv := hs

/-! ### Updates of the window, of memory and of the registers -/

theorem State.Inv.moved {s : State} (hs : s.Inv) (c : Nat) : (s.moved c).Inv := by
  obtain ⟨htab, -, -, hwf, hbelow⟩ := hs
  have hcur : (BitVec.ofNat 32 (s.windowAddr c)).toNat < s.memSize := by
    rw [toNat_ofNat_of_lt (s.windowAddr_lt c)]
    exact s.windowAddr_lt c
  have hle : s.lenA - c < s.memSize := lt_of_le_of_lt (Nat.sub_le _ _) s.lenA_lt
  have hlen : (BitVec.ofNat 32 (s.lenA - c)).toNat < s.memSize := by
    rwa [toNat_ofNat_of_lt hle]
  exact ⟨htab, hcur, hlen, hwf, hbelow⟩

theorem State.Inv.storeBytes {s : State} (hs : s.Inv) (k : Nat) (bs : List Byte) : (s.storeBytes k bs).Inv := by
  obtain ⟨htab, hcur, hlen, hwf, hbelow⟩ := hs
  exact ⟨htab, hcur, hlen, Memory.storeFrom_wf hwf _ _ _ _, Memory.storeFrom_below hbelow s.memSize_pos _ _ _⟩

theorem State.Inv.memWrite {s : State} (hs : s.Inv) {a : Nat} (ha : a < s.memSize) (b : Byte) :
    State.Inv { s with mem := s.mem.write a b } := by
  obtain ⟨htab, hcur, hlen, hwf, hbelow⟩ := hs
  exact ⟨htab, hcur, hlen, Memory.write_wf hwf _ _, Memory.write_below hbelow ha _⟩

theorem State.Inv.writeReg {s : State} (hs : s.Inv) (offset : BitVec 8) (w : Word) : (s.writeReg offset w).Inv := by
  obtain ⟨htab, hcur, hlen, hwf, hbelow⟩ := hs
  refine ⟨by simpa [State.tablesFixed] using htab, ?_, ?_, by simpa using hwf, by simpa using hbelow⟩
  · rcases s.writeReg_cur offset w with h | h <;> rw [h, s.writeReg_memSize]
    · exact hcur
    · exact s.truncAddr_toNat_lt w
  · rcases s.writeReg_len offset w with h | h <;> rw [h, s.writeReg_memSize]
    · exact hlen
    · exact s.truncAddr_toNat_lt w

theorem State.Inv.resetRegisters {s : State} (hs : s.Inv) : s.resetRegisters.Inv := by
  obtain ⟨htab, -, -, hwf, hbelow⟩ := hs
  exact ⟨htab, s.memSize_pos, s.memSize_pos, hwf, hbelow⟩

/-! ### Commands, accesses, steps -/

theorem exec_keeps_inv {i : Instr} {s t : State} (hs : s.Inv) (h : exec i s = .next t) : t.Inv := by
  cases exec_effect h with
  | raises e he h => exact h ▸ hs.complete e
  | computes he hd r h => exact h ▸ (hs.setResults r).complete .ok
  | encodes he bs hl h => exact h ▸ ((hs.storeBytes 0 bs).moved bs.length).complete .ok
  | decodes hd r c hl h => exact h ▸ ((hs.setResults r).moved c).complete .ok

theorem runCommand_keeps_inv {w : Word} {s t : State} (hs : s.Inv) (h : runCommand w s = .next t) : t.Inv := by
  rcases runCommand_cases h with ⟨i, -, hi⟩ | rfl
  · exact exec_keeps_inv hs hi
  · exact hs.complete .illegalCommand

theorem AccessEffect.keeps_inv {a : HostAccess} {s t : State} (hs : s.Inv) (h : AccessEffect a s t) : t.Inv := by
  cases h with
  | reads d h => exact h ▸ hs
  | commands w ha h => exact runCommand_keeps_inv hs h
  | writesRegister offset w ha h => exact h ▸ hs.writeReg offset w
  | writesMemory address b ha hlt h => exact h ▸ hs.memWrite hlt b
  | resets ha h => exact h ▸ hs.resetRegisters

/-- Settles O16: a step is idle or a host access, and every access keeps the invariant. -/
theorem stepKeepsInvariant : Obligations.StepKeepsInvariant := by
  intro s t hs h
  rcases step_cases h with ⟨-, rfl⟩ | ⟨a, rest, -, ha⟩
  · exact hs
  · exact AccessEffect.keeps_inv (s := { s with pending := rest }) hs ha

/-- Settles O15: the tables hold their contents, CUR and LEN are 0, and memory lists nothing. -/
theorem invariantAtReset : Obligations.InvariantAtReset :=
  ⟨State.reset_tablesFixed, State.reset.memSize_pos, State.reset.memSize_pos, rfl, rfl⟩

end Sys2Proof.Machine
end

section
/-!
PROOFS. STATUS and the interface registers as the host reaches them (10_state.md R21 to R29), the reset state (R37) and
the tables (R30 to R33).
-/

namespace Sys2Proof.Machine

open Sys2Proof.Statements

/-! ### STATUS -/

theorem Status.toWord_toNat (st : Status) : st.toWord.toNat = st.code.bits.toNat + 256 * st.sticky.toNat := by
  obtain ⟨code, sticky⟩ := st
  cases code <;> cases sticky <;> rfl

theorem Status.hostWrite_eq (st : Status) (w : Word) :
    st.hostWrite w = ⟨st.code, st.sticky && decide (w.toNat / 256 % 2 = 0)⟩ := by
  have hbit : (!w.getLsbD 8) = decide (w.toNat / 256 % 2 = 0) := by
    rw [BitVec.getLsbD, Nat.testBit_eq_decide_div_mod_eq, ← decide_not]
    exact decide_eq_decide.mpr (by omega)
  rw [Status.hostWrite, hbit]

/-- Settles O12: the codes and the word by cases on STATUS, the host's write by the step, the commands by their
completion. -/
theorem statusRegisterFields : Obligations.StatusRegisterFields := by
  refine ⟨rfl, fun c => ?_, fun s => s.status.toWord_toNat, fun s w rest h => ?_, fun i s t h => ?_⟩
  · cases c <;> decide
  · rw [step_regWrite_word h rfl (by decide), ← Status.hostWrite_eq]
    rfl
  · rw [exec_status h]
    simp

/-! ### Commands and registers -/

/-- Settles O5: the step is `runCommand`, which runs the decoded command. -/
theorem stepRunsDecodedCommand : Obligations.StepRunsDecodedCommand := by
  intro s w i rest h hd
  rw [step_command h, runCommand_of_decode hd]

/-- The register map is what a read returns, at aligned offsets. -/
theorem readReg_registerMap (s : State) : ∀ p ∈ registerMap s, p.1.toNat % 4 = 0 ∧ s.readReg p.1 = p.2 := by
  simp [registerMap, State.readReg, State.truncAddr, State.curA, State.lenA]

/-- Settles O10: the word of the map is the word read. -/
theorem hostReadsTheRegisterMap : Obligations.HostReadsTheRegisterMap := by
  intro s offset w rest h hm
  obtain ⟨ha, hr⟩ := readReg_registerMap s _ hm
  rw [step_regRead_word h ha, hr]

/-- The map of writable registers is what a write leaves, at aligned offsets other than CMD's, whatever the host's
list. -/
theorem writeReg_writableMap (s : State) (w : Word) (rest : List HostAccess) :
    ∀ p ∈ writableMap s w, p.1.toNat % 4 = 0 ∧ p.1.toNat ≠ 0 ∧
      State.writeReg { s with pending := rest } p.1 w = { p.2 with pending := rest } := by
  simp [writableMap, State.writeReg, State.truncAddr, State.memSize]

/-- CNT and R0..R3 ignore writes (10_state.md R26, R28). -/
theorem writeReg_readOnly (s : State) (w : Word) :
    ∀ offset ∈ ([0x10, 0x24, 0x28, 0x2C, 0x30] : List (BitVec 8)),
      offset.toNat % 4 = 0 ∧ offset.toNat ≠ 0 ∧ s.writeReg offset w = s := by
  simp [State.writeReg]

/-- Settles O11: the offsets of the two lists, which are aligned and not CMD's. -/
theorem hostWritesTheRegisterMap : Obligations.HostWritesTheRegisterMap := by
  refine ⟨fun s t offset w rest h hm => ?_, fun s offset w rest h hm => ?_⟩
  · obtain ⟨ha, h0, hw⟩ := writeReg_writableMap s w rest _ hm
    rw [step_regWrite_word h ha h0, hw]
  · obtain ⟨ha, h0, hw⟩ := writeReg_readOnly { s with pending := rest } w offset hm
    rw [step_regWrite_word h ha h0, hw]

theorem alignedWord_of_odd {size : AccessSize} {offset : BitVec 8} (h : size ≠ .word ∨ offset.toNat % 4 ≠ 0) :
    ¬ alignedWord size offset = true := by
  rw [alignedWord_iff]
  tauto

/-- Settles O13: the two guards of a register access, and the reserved offsets. -/
theorem oddRegisterAccessesRefused : Obligations.OddRegisterAccessesRefused := by
  refine ⟨fun s size offset w rest hodd => ⟨fun h => ?_, fun h => ?_⟩,
    fun s offset w rest ha hres => ⟨fun h => ?_, fun h => ?_⟩⟩
  · rw [step_of_pending h, hostAccess, hostRegRead, if_neg (alignedWord_of_odd hodd)]
  · rw [step_of_pending h, hostAccess, hostRegWrite, if_neg (alignedWord_of_odd hodd)]
  · rw [step_regRead_word h ha, State.readReg_reserved s hres]
  · rw [step_regWrite_word h ha (by omega), State.writeReg_reserved _ w hres]

/-! ### Reset -/

/-- Every register reads 0 right after reset (10_state.md R37). -/
theorem reset_readReg (offset : BitVec 8) : State.reset.readReg offset = 0 := by
  unfold State.readReg
  split <;> rfl

/-- Settles O7: the fields of the reset state, the registers' words and the tables. -/
theorem resetHoldsItsValues : Obligations.ResetHoldsItsValues :=
  ⟨rfl, rfl, rfl, rfl, rfl, rfl, rfl, rfl, rfl, rfl, rfl, rfl, reset_readReg, State.reset_tablesFixed⟩

/-! ### Tables -/

theorem romFContents_get (h : Fin 256) : (romFContents.get h).map Fin.val = plusOne (fieldsOf h.val) := by
  rw [romFContents, tableOf_get_index, entryF_val, BitVec.toNat_ofNat, Nat.mod_eq_of_lt h.isLt]
  rfl

theorem romCContents_get (h : Fin 256) : (romCContents.get h).map Fin.val = fieldsOf h.val := by
  rw [romCContents, tableOf_get_index, entryC_val, BitVec.toNat_ofNat, Nat.mod_eq_of_lt h.isLt]
  rfl

/-- Settles O23: the tables entry by entry, the mask by the width of what is read, and that every step keeps them. -/
theorem tablesHoldTheirRule : Obligations.TablesHoldTheirRule :=
  ⟨fun h => ⟨romFContents_get h, romCContents_get h⟩, maskContents_toNat,
    fun _ htab j n => State.unpack_eq_memRead htab j n, fun _ _ h => step_keeps_tables h⟩

/-- A byte put below a word of any width, over numbers. -/
theorem append_byte_toNat {n : Nat} (x : BitVec n) (b : Byte) : (x ++ b).toNat = x.toNat * 256 + b.toNat := by
  rw [BitVec.toNat_append, ← Nat.shiftLeft_add_eq_or_of_lt b.isLt, Nat.shiftLeft_eq]

theorem len_byte_toNat (n : Len) : (BitVec.ofNat 8 n.val).toNat = n.val := by
  rw [BitVec.toNat_ofNat, Nat.mod_eq_of_lt (by omega)]

/-- Settles O24: the four bytes of the word, the highest first. -/
theorem tableEntryWordLayout : Obligations.TableEntryWordLayout := by
  intro l
  rw [entryWord, append_byte_toNat, append_byte_toNat, append_byte_toNat]
  simp only [len_byte_toNat]
  omega

end Sys2Proof.Machine
end

section
/-!
PROOFS. What a command depends on (10_state.md R35, R36): with another STATUS and another memory that has the same bytes
in the window, it writes the same registers, stores the same bytes and ends with the same code.
-/

namespace Sys2Proof.Machine

/-! ### The same state with another STATUS and another memory -/

/-- The state with what a command does not read replaced: STATUS, and memory (whose window is to stay the same). -/
def State.withStatusMem (s : State) (st : Status) (m : Memory) : State := { s with status := st, mem := m }

theorem State.withStatusMem_v0 (s : State) (st : Status) (m : Memory) : (s.withStatusMem st m).v0 = s.v0 := rfl

theorem State.withStatusMem_lenA (s : State) (st : Status) (m : Memory) : (s.withStatusMem st m).lenA = s.lenA := rfl

/-- Memory `m` has the same bytes as that of `s` in the window of `s`. -/
def State.SameWindow (s : State) (m : Memory) : Prop := ∀ k, k < s.lenA → m.read (s.windowAddr k) = s.windowByte k

section
variable {s : State} {m : Memory}

theorem State.SameWindow.windowByte (h : s.SameWindow m) (st : Status) {k : Nat} (hk : k < s.lenA) :
    (s.withStatusMem st m).windowByte k = s.windowByte k := h k hk

theorem State.SameWindow.windowBytes (h : s.SameWindow m) (st : Status) {k n : Nat} (hn : k + n ≤ s.lenA) :
    (s.withStatusMem st m).windowBytes k n = s.windowBytes k n :=
  windowBytes_congr fun i hi => h.windowByte st (by omega)

theorem State.SameWindow.unpack (h : s.SameWindow m) (st : Status) {j : Nat} {n : Len} (hn : j + n.val ≤ s.lenA) :
    (s.withStatusMem st m).unpack j n = s.unpack j n :=
  congrArg (· &&& s.maskRom.get n) (congrArg leValue (h.windowBytes st hn))

theorem State.SameWindow.unpackQuad (h : s.SameWindow m) (st : Status) {l : Quad Len} (hl : quadSize l ≤ s.lenA) :
    (s.withStatusMem st m).unpackQuad l = s.unpackQuad l := by
  unfold quadSize at hl
  unfold State.unpackQuad
  congr 1 <;> exact h.unpack st (by omega)

theorem State.SameWindow.scanFrom (h : s.SameWindow m) (st : Status) {k left : Nat} (acc : Word)
    (hk : k + left ≤ s.lenA) : (s.withStatusMem st m).scanFrom k acc left = s.scanFrom k acc left := by
  induction left generalizing k acc with
  | zero => rfl
  | succ left ih =>
    rw [State.scanFrom, State.scanFrom, h.windowByte st (by omega), ih _ (by omega)]

theorem State.SameWindow.scan (h : s.SameWindow m) (st : Status) : (s.withStatusMem st m).scan = s.scan := by
  unfold State.scan
  rw [State.withStatusMem_lenA, h.scanFrom st 0 (by omega)]

theorem State.SameWindow.decodedValue (h : s.SameWindow m) (st : Status) (acc : Word) {n : Nat} (hn : n ≤ s.lenA) :
    (s.withStatusMem st m).decodedValue acc n = s.decodedValue acc n := by
  have hover : (s.withStatusMem st m).overlong n = s.overlong n := by
    unfold State.overlong
    by_cases h5 : n = 5
    · rw [h.windowByte st (by omega)]
    · simp [beq_eq_false_iff_ne.mpr h5]
  unfold State.decodedValue
  rw [hover, h.windowBytes st (by omega)]
  rfl

/-! ### Bodies that agree -/

/-- Two bodies, from `s` and from `s` with another STATUS and memory, agree: they raise the same code, or they reach
states that differ in those two only, with the same bytes stored at the start of the window. -/
inductive BodiesAgree (s : State) (st : Status) (m : Memory) :
    Except Completion State → Except Completion State → Prop where
  | raise (e : Completion) : BodiesAgree s st m (.error e) (.error e)
  | reach (u : State) (bs : List Byte) (hst : u.status = s.status)
      (hm : u.mem = Memory.storeFrom s.memSize s.curA 0 bs s.mem) :
      BodiesAgree s st m (.ok u) (.ok (u.withStatusMem st (Memory.storeFrom s.memSize s.curA 0 bs m)))

variable {st : Status}

theorem BodiesAgree.setResults (r : Quad Word) :
    BodiesAgree s st m (.ok (s.setResults r)) (.ok ((s.withStatusMem st m).setResults r)) := .reach _ [] rfl rfl

theorem BodiesAgree.setR0 (w : Word) :
    BodiesAgree s st m (.ok (s.setR0 w)) (.ok ((s.withStatusMem st m).setR0 w)) := .reach _ [] rfl rfl

theorem BodiesAgree.setResults_moved (r : Quad Word) (c : Nat) :
    BodiesAgree s st m (.ok ((s.setResults r).moved c)) (.ok (((s.withStatusMem st m).setResults r).moved c)) :=
  .reach _ [] rfl rfl

theorem BodiesAgree.setR0_moved (w : Word) (c : Nat) :
    BodiesAgree s st m (.ok ((s.setR0 w).moved c)) (.ok (((s.withStatusMem st m).setR0 w).moved c)) :=
  .reach _ [] rfl rfl

theorem BodiesAgree.moved (c : Nat) :
    BodiesAgree s st m (.ok (s.moved c)) (.ok ((s.withStatusMem st m).moved c)) := .reach _ [] rfl rfl

theorem BodiesAgree.storeBytes_moved (bs : List Byte) (c : Nat) :
    BodiesAgree s st m (.ok ((s.storeBytes 0 bs).moved c)) (.ok (((s.withStatusMem st m).storeBytes 0 bs).moved c)) :=
  .reach _ bs rfl rfl

/-- A first part that both bodies share, then bodies that agree on its result. -/
theorem BodiesAgree.bind {α : Type} {x : Except Completion α} {f g : α → Except Completion State}
    (h : ∀ a, x = .ok a → BodiesAgree s st m (f a) (g a)) : BodiesAgree s st m (x >>= f) (x >>= g) := by
  cases x with
  | error e => exact .raise e
  | ok a => exact h a rfl

theorem BodiesAgree.encode (n : Nat) (bs : List Byte) :
    BodiesAgree s st m (do s.need n; .ok ((s.storeBytes 0 bs).moved n))
      (do (s.withStatusMem st m).need n; .ok (((s.withStatusMem st m).storeBytes 0 bs).moved n)) :=
  .bind (x := s.need n) fun _ _ => .storeBytes_moved bs n

theorem le_lenA_of_haveBytes {n : Nat} {a : Unit} (h : s.haveBytes n = .ok a) : n ≤ s.lenA := by
  rcases s.haveBytes_cases n with ⟨-, hl⟩ | ⟨he, -⟩ | ⟨he, -⟩
  · exact hl
  · cases he.symm.trans h
  · cases he.symm.trans h

theorem le_lenA_of_scan {acc : Word} {n : Nat} (h : s.scan = .ok (acc, n)) : n ≤ s.lenA := by
  rcases s.scan_cases with ⟨k, ⟨-, hl, -⟩, hk⟩ | ⟨-, hk⟩ | ⟨-, -, hk⟩ <;> cases hk.symm.trans h
  exact hl

theorem BodiesAgree.decodeQuad (h : s.SameWindow m) (rom : Vector (Quad Len) 256) :
    BodiesAgree s st m (s.decodeQuad rom) ((s.withStatusMem st m).decodeQuad rom) := by
  unfold State.decodeQuad
  refine .bind (x := s.haveBytes 1) fun _ h1 => ?_
  rw [h.windowByte st (le_lenA_of_haveBytes h1)]
  refine .bind (x := s.haveBytes _) fun _ hq => ?_
  rw [h.unpackQuad st (le_lenA_of_haveBytes hq)]
  exact .setResults_moved _ _

/-! ### Every command -/

/-- What `exec` answers from `s` with another STATUS and memory, given what it answers from `s`. -/
def AnswersAgree (s : State) (st : Status) (m : Memory) (x y : Answer) : Prop :=
  ∀ t, x = .next t → ∃ bs, t.mem = Memory.storeFrom s.memSize s.curA 0 bs s.mem ∧
    y = .next (t.withStatusMem (st.complete t.status.code) (Memory.storeFrom s.memSize s.curA 0 bs m))

theorem BodiesAgree.finish {b b' : Except Completion State} (h : BodiesAgree s st m b b') :
    AnswersAgree s st m (s.finish b) ((s.withStatusMem st m).finish b') := by
  intro t ht
  cases h with
  | raise e =>
    obtain rfl : s.complete e = t := by simpa using ht
    exact ⟨[], rfl, rfl⟩
  | reach u bs hst hm =>
    obtain rfl : u.complete .ok = t := by simpa using ht
    exact ⟨bs, hm, rfl⟩

theorem exec_withStatusMem (h : s.SameWindow m) (i : Instr) :
    AnswersAgree s st m (exec i s) (exec i (s.withStatusMem st m)) := by
  cases i with
  | blenF => exact (BodiesAgree.setR0 _).finish
  | blenC =>
    refine BodiesAgree.finish ?_
    rw [State.withStatusMem_v0]
    cases blenC s.v0 with
    | some n => exact .setR0 _
    | none => exact .raise _
  | venc => exact (BodiesAgree.encode _ _).finish
  | vdec =>
    refine BodiesAgree.finish ?_
    rw [h.scan]
    refine .bind fun ⟨acc, k⟩ hk => ?_
    dsimp only
    rw [h.decodedValue st acc (le_lenA_of_scan hk)]
    exact .setR0_moved _ _
  | vskip =>
    refine BodiesAgree.finish ?_
    rw [h.scan]
    exact .bind fun r _ => .moved r.2
  | qsizeF => exact (BodiesAgree.setR0 _).finish
  | hencF => exact (BodiesAgree.setR0 _).finish
  | hdecF => exact (BodiesAgree.setResults _).finish
  | qencF => exact (BodiesAgree.encode _ _).finish
  | qdecF => exact (BodiesAgree.decodeQuad h _).finish
  | qsizeC => exact (BodiesAgree.bind (x := lensC s.operands) fun _ _ => .setR0 _).finish
  | hencC => exact (BodiesAgree.bind (x := lensC s.operands) fun _ _ => .setR0 _).finish
  | hdecC => exact (BodiesAgree.setResults _).finish
  | qencC => exact (BodiesAgree.bind (x := lensC s.operands) fun _ _ => .encode _ _).finish
  | qdecC => exact (BodiesAgree.decodeQuad h _).finish
  | lepack nb => exact (BodiesAgree.bind fun _ _ => .encode _ _).finish
  | leunpack nb =>
    refine (BodiesAgree.bind fun n _ => .bind (x := s.haveBytes n.val) fun _ hn => ?_).finish
    rw [h.unpack st (by simpa using le_lenA_of_haveBytes hn)]
    exact .setR0_moved _ _

end

/-! ### The two statements -/

/-- Settles O20: the memory is the same and STATUS alone another. -/
theorem statusIsOutputOnly : Obligations.StatusIsOutputOnly := by
  intro i s t before h
  obtain ⟨bs, hm, hx⟩ := exec_withStatusMem (m := s.mem) (st := before) (fun _ _ => rfl) i t h
  rw [← hm] at hx
  exact hx

/-- A run of bytes stored in two memories leaves equal the bytes that were equal. -/
theorem Memory.read_storeFrom_congr (size base k : Nat) (bs : List Byte) {m m' : Memory} {a : Nat}
    (h : m.read a = m'.read a) :
    (Memory.storeFrom size base k bs m).read a = (Memory.storeFrom size base k bs m').read a := by
  induction bs generalizing k m m' with
  | nil => exact h
  | cons b bs ih =>
    refine ih (k + 1) ?_
    by_cases ha : a = (base + k) % size
    · rw [ha, Memory.read_write_same, Memory.read_write_same]
    · rw [Memory.read_write_other m b ha, Memory.read_write_other m' b ha, h]

/-- States that no command can tell apart differ in memory only, and not in the window. -/
theorem State.sameForCommands_eq {s t : State} (h : s.sameForCommands t) :
    t = s.withStatusMem s.status t.mem ∧ s.SameWindow t.mem := by
  obtain ⟨hregs, hwin⟩ := h
  have ht : t = s.withStatusMem s.status t.mem := (congrArg (fun u : State => { u with mem := t.mem }) hregs).symm
  refine ⟨ht, fun k hk => ?_⟩
  rw [hwin k hk, ht]
  rfl

/-- Settles O26: STATUS is the same and memory alone another, with the same bytes in the window. -/
theorem outcomeDependsOnTheWindowOnly : Obligations.OutcomeDependsOnTheWindowOnly := by
  intro i s t s' h he
  obtain ⟨ht, hwin⟩ := State.sameForCommands_eq h
  obtain ⟨bs, hm, hx⟩ := exec_withStatusMem (st := s.status) hwin i s' he
  rw [← ht, ← exec_status he] at hx
  refine ⟨_, hx, rfl, fun a ha => ?_⟩
  rw [hm]
  exact Memory.read_storeFrom_congr _ _ _ _ ha

end Sys2Proof.Machine
end

section
/-!
PROOFS. Buffer memory (20_memory.md): the host reads back what it writes (R50, R51), commands write inside the window
only (R54, R61) and move it (R58), and a decoder repeats (R61).
-/

namespace Sys2Proof.Machine

open Sys2Proof.Statements

/-! ### The host's accesses to memory -/

theorem step_memWrite {s : State} {a : Nat} {b : Byte} {rest : List HostAccess}
    (h : s.pending = .memWrite a b :: rest) (ha : a < s.memSize) :
    step s = .next { s with pending := rest, mem := s.mem.write a b } :=
  (step_of_pending h).trans (if_pos ha)

theorem step_memWrite_outside {s : State} {a : Nat} {b : Byte} {rest : List HostAccess}
    (h : s.pending = .memWrite a b :: rest) (ha : s.memSize ≤ a) : step s = .fault (.bufferAddressOutOfRange a) :=
  (step_of_pending h).trans (if_neg (Nat.not_lt.mpr ha))

theorem step_memRead {s : State} {a : Nat} {b : Byte} {rest : List HostAccess} (h : s.pending = .memRead a :: rest)
    (ha : a < s.memSize) (hb : s.mem.read a = b) :
    step s = .next { s with pending := rest, lastRead := some (.byte b) } :=
  hb ▸ (step_of_pending h).trans (if_pos ha)

/-- Settles O14: the memory in between is the old one with the byte written. -/
theorem hostReachesBufferMemory : Obligations.HostReachesBufferMemory := by
  intro s a b rest h
  refine ⟨fun ha => ⟨s.mem.write a b, step_memWrite h ha, ?_, fun a' hne => Memory.read_write_other _ _ hne⟩,
    step_memWrite_outside h⟩
  exact step_memRead rfl ha (Memory.read_write_same s.mem a b)

/-! ### The window -/

/-- Bytes stored at the start of the window, and no more than it holds, are stored inside it. -/
theorem State.storeBytes_read_outside_window {s : State} {a : Nat} {bs : List Byte} (hl : bs.length ≤ s.lenA)
    (ha : ¬ s.inWindow a) : (s.storeBytes 0 bs).mem.read a = s.mem.read a := by
  refine storeBytes_read_outside fun i hi heq => ha ⟨i, Nat.lt_of_lt_of_le hi hl, ?_⟩
  rwa [Nat.zero_add] at heq

/-- Settles O25: of the four effects a command can have, an encoder's store alone writes memory. -/
theorem writesStayInTheWindow : Obligations.WritesStayInTheWindow := by
  intro i s t h
  cases exec_effect h with
  | raises e he h => simp [h]
  | computes he hd r h => simp [h]
  | encodes he bs hl h =>
    subst h
    exact ⟨fun a ha => State.storeBytes_read_outside_window hl ha, fun hn => absurd he (by simp [hn])⟩
  | decodes hd r c hl h => simp [h]

/-- CNT, CUR and LEN over numbers after a memory command that moved `c` bytes (20_memory.md R58). -/
theorem State.moved_toNat {s : State} {c : Nat} (hc : c ≤ s.lenA) :
    (s.moved c).cnt.toNat = c ∧ (s.moved c).cur.toNat = (s.curA + c) % s.memSize ∧
      (s.moved c).len.toNat = s.lenA - c :=
  ⟨toNat_ofNat_of_lt (Nat.lt_of_le_of_lt hc s.lenA_lt), toNat_ofNat_of_lt (s.windowAddr_lt c),
    toNat_ofNat_of_lt (Nat.lt_of_le_of_lt (Nat.sub_le _ _) s.lenA_lt)⟩

theorem State.moved_follows_cnt {s : State} {c : Nat} (hc : c ≤ s.lenA) :
    (s.moved c).cnt.toNat ≤ s.lenA ∧ (s.moved c).cur.toNat = (s.curA + (s.moved c).cnt.toNat) % s.memSize ∧
      (s.moved c).len.toNat = s.lenA - (s.moved c).cnt.toNat := by
  obtain ⟨hcnt, hcur, hlen⟩ := moved_toNat hc
  rw [hcnt]
  exact ⟨hc, hcur, hlen⟩

/-- Settles O27: the two effects of a memory command that ends with OK move the window, the others do not. -/
theorem memoryCommandsMoveTheWindow : Obligations.MemoryCommandsMoveTheWindow := by
  intro i s t h
  cases exec_effect h with
  | raises e he h => simp [h, he]
  | computes he hd r h => simp [h, he, hd]
  | encodes he bs hl h =>
    subst h
    rw [if_pos (by simp [he])]
    exact State.moved_follows_cnt (s := s.storeBytes 0 bs) hl
  | decodes hd r c hl h =>
    subst h
    rw [if_pos (by simp [hd])]
    exact State.moved_follows_cnt (s := s.setResults r) hl

/-! ### Decoders again -/

theorem not_encodes_of_decodes {i : Instr} (h : i.decodes = true) : i.encodes = false := by
  cases i with
  | vdec | vskip | qdecF | qdecC | leunpack nb => rfl
  | _ => cases h

/-- The state with the outputs of a decoder other than CUR and LEN as they are in `t`: STATUS, CNT and the result
registers. -/
def State.withOutputsOf (s t : State) : State :=
  { s with status := t.status, cnt := t.cnt, r0 := t.r0, r1 := t.r1, r2 := t.r2, r3 := t.r3 }

/-- After a decoder the host's rewind leaves the outputs as all that is new. -/
theorem rewind_decoder {i : Instr} {s t : State} (hd : i.decodes = true) (h : exec i s = .next t) :
    rewind s t = s.withOutputsOf t := by
  cases exec_effect h with
  | raises e he h => subst h; rfl
  | computes he hn r h => exact absurd hd (by simp [hn])
  | encodes he bs hl h => exact absurd he (by simp [not_encodes_of_decodes hd])
  | decodes hd r c hl h => subst h; rfl

/-- What does not depend on a decoder's outputs. -/
def ReadsNoOutput {α : Type} (x : State → α) : Prop := ∀ s t : State, x (s.withOutputsOf t) = x s

theorem State.scanFrom_withOutputsOf (s t : State) (k : Nat) (acc : Word) (left : Nat) :
    (s.withOutputsOf t).scanFrom k acc left = s.scanFrom k acc left := by
  induction left generalizing k acc with
  | zero => rfl
  | succ left ih => rw [State.scanFrom, State.scanFrom, ih]; rfl

theorem ReadsNoOutput.scan : ReadsNoOutput State.scan := by
  intro s t
  unfold State.scan
  rw [State.scanFrom_withOutputsOf]
  rfl

/-- A body that, run again from the same state with the outputs of its first run, ends as it did. -/
def Repeats (body : State → Except Completion State) : Prop :=
  ∀ s t : State, s.finish (body s) = .next t → (s.withOutputsOf t).finish (body (s.withOutputsOf t)) = .next t

theorem State.complete_complete (s : State) (c : Completion) : (s.complete c).complete c = s.complete c := by
  simp [State.complete, Status.complete]

/-- An update repeats when, from its own outputs, it gives its own result again. -/
theorem Repeats.update {f : State → State}
    (hf : ∀ s, f (s.withOutputsOf ((f s).complete .ok)) = (f s).complete .ok) : Repeats fun v => .ok (f v) := by
  intro s t h
  obtain rfl : (f s).complete .ok = t := by simpa using h
  rw [State.finish_ok, hf, State.complete_complete]

/-- A first part that reads no output, then a body that repeats. -/
theorem Repeats.bind {α : Type} {x : State → Except Completion α} {f : State → α → Except Completion State}
    (hx : ReadsNoOutput x) (hf : ∀ a, Repeats fun v => f v a) : Repeats fun v => x v >>= f v := by
  intro s t h
  dsimp only
  rw [hx]
  cases hxs : x s with
  | ok a => exact hf a s t (by simpa [hxs] using h)
  | error e =>
    obtain rfl : s.complete e = t := by simpa [hxs] using h
    exact congrArg _ (s.complete_complete e)

theorem Repeats.decodeQuad {rom : State → Vector (Quad Len) 256} (hrom : ReadsNoOutput rom) :
    Repeats fun v => v.decodeQuad (rom v) := by
  refine .bind (x := fun v => v.haveBytes 1) (fun _ _ => rfl) fun _ =>
    .bind (x := fun v => v.haveBytes (quadSize ((rom v).get (v.windowByte 0).toFin))) (fun s t => ?_) fun _ =>
      .update fun s => ?_
  · dsimp only
    rw [hrom]
    rfl
  · rw [hrom]
    rfl

/-- Every decoder is a body that repeats. -/
theorem exec_decoder_repeats {i : Instr} {s t : State} (hd : i.decodes = true) (h : exec i s = .next t) :
    exec i (s.withOutputsOf t) = .next t := by
  cases i with
  | vdec =>
    exact Repeats.bind .scan
      (fun r => .update (f := fun v => (v.setR0 (v.decodedValue r.1 r.2)).moved r.2) fun _ => rfl) s t h
  | vskip => exact Repeats.bind .scan (fun r => .update (f := fun v => v.moved r.2) fun _ => rfl) s t h
  | qdecF => exact Repeats.decodeQuad (rom := State.romF) (fun _ _ => rfl) s t h
  | qdecC => exact Repeats.decodeQuad (rom := State.romC) (fun _ _ => rfl) s t h
  | leunpack nb =>
    exact Repeats.bind (x := fun _ => byteCount nb) (fun _ _ => rfl)
      (fun n => .bind (x := fun v => v.haveBytes n.val) (fun _ _ => rfl)
        fun _ => .update (f := fun v => (v.setR0 (v.unpack 0 n)).moved n.val) fun _ => rfl) s t h
  | _ => cases hd

/-- Settles O28: a decoder is no encoder, and rewound it runs from the same state but for its own outputs. -/
theorem decodersRepeat : Obligations.DecodersRepeat := by
  intro i s t hd h
  refine ⟨(writesStayInTheWindow i s t h).2 (not_encodes_of_decodes hd), ?_⟩
  rw [rewind_decoder hd h]
  exact exec_decoder_repeats hd h

end Sys2Proof.Machine
end

section
/-!
PROOFS. Command words (30_encoding.md R70 to R74): decode and encode agree in both directions, so the legal words are
the words whose fields are those of a well-formed command; a write of any other word to CMD raises.
-/

namespace Sys2Proof

/-! ### Decode and encode -/

/-- A well-formed command's word decodes to it: the laws per instruction, one statement. -/
theorem decode_encode {i : Instr} (h : i.wf = true) : decode (encode i) = .ok i := by
  cases i with
  | blenF => exact Laws.DecodeEncode.blenF h
  | blenC => exact Laws.DecodeEncode.blenC h
  | venc => exact Laws.DecodeEncode.venc h
  | vdec => exact Laws.DecodeEncode.vdec h
  | vskip => exact Laws.DecodeEncode.vskip h
  | qsizeF => exact Laws.DecodeEncode.qsizeF h
  | hencF => exact Laws.DecodeEncode.hencF h
  | hdecF => exact Laws.DecodeEncode.hdecF h
  | qencF => exact Laws.DecodeEncode.qencF h
  | qdecF => exact Laws.DecodeEncode.qdecF h
  | qsizeC => exact Laws.DecodeEncode.qsizeC h
  | hencC => exact Laws.DecodeEncode.hencC h
  | hdecC => exact Laws.DecodeEncode.hdecC h
  | qencC => exact Laws.DecodeEncode.qencC h
  | qdecC => exact Laws.DecodeEncode.qdecC h
  | lepack nb => exact Laws.DecodeEncode.lepack nb h
  | leunpack nb => exact Laws.DecodeEncode.leunpack nb h

/-- A word is a command's encoding exactly when RES is zero and OPC and NB are the command's (30_encoding.md R74). -/
theorem encode_eq_iff {w : Word} {i : Instr} :
    encode i = w ↔ resField w = 0 ∧ opcField w = i.opc ∧ nbField w = i.nb := by
  constructor
  · rintro rfl
    exact ⟨resField_encode i, opcField_encode i, nbField_encode i⟩
  · rintro ⟨hr, ho, hn⟩
    exact word_eq_of_fields ((opcField_encode i).trans ho.symm) ((nbField_encode i).trans hn.symm)
      ((resField_encode i).trans hr.symm)

/-- Settles O2: a decoded word has the fields of its command's encoding, and a word is its fields; the other direction
is `decode_encode`. -/
theorem decodeInvertsEncode : Obligations.DecodeInvertsEncode := by
  intro w i
  constructor
  · intro h
    obtain ⟨hr, ho, hn, hwf⟩ := decode_fields h
    exact ⟨hwf, encode_eq_iff.mpr ⟨hr, ho, hn⟩⟩
  · rintro ⟨hwf, rfl⟩
    exact decode_encode hwf

/-! ### Legal words -/

/-- A word is legal exactly when RES is zero and OPC and NB are, as numbers, those of a well-formed command. -/
theorem exists_decode_iff {w : Word} :
    (∃ i, decode w = .ok i) ↔
      w.toNat / 2 ^ 11 = 0 ∧
        ∃ i : Instr, i.wf = true ∧ i.opc.toNat = w.toNat % 256 ∧ i.nb.toNat = w.toNat / 256 % 8 := by
  simp only [decodeInvertsEncode w, encode_eq_iff]
  simp only [← BitVec.toNat_inj, opcField_toNat, nbField_toNat, resField_toNat]
  constructor
  · rintro ⟨i, hwf, hr, ho, hn⟩
    exact ⟨hr, i, hwf, ho.symm, hn.symm⟩
  · rintro ⟨hr, i, hwf, ho, hn⟩
    exact ⟨i, hwf, hr, ho.symm, hn.symm⟩

/-- The commands that carry no byte count are the first fifteen of the table (30_encoding.md R72). -/
theorem plain_command {i : Instr} (h : i ∈ commands.take 15) : i.wf = true ∧ i.nb = 0 := by
  revert i
  decide

/-- The codes and byte counts of the well-formed commands (30_encoding.md R71, R72). -/
theorem wf_codes_iff {o n : Nat} :
    (∃ i : Instr, i.wf = true ∧ i.opc.toNat = o ∧ i.nb.toNat = n) ↔
      (o ∈ [0x30, 0x31] ∧ n ≤ 4) ∨
      (o ∈ [0x01, 0x02, 0x10, 0x11, 0x12, 0x20, 0x21, 0x22, 0x23, 0x24, 0x28, 0x29, 0x2A, 0x2B, 0x2C] ∧ n = 0) := by
  constructor
  · rintro ⟨i, hwf, rfl, rfl⟩
    cases i with
    | lepack nb => exact .inl ⟨by simp [Instr.opc], of_decide_eq_true hwf⟩
    | leunpack nb => exact .inl ⟨by simp [Instr.opc], of_decide_eq_true hwf⟩
    | _ => exact .inr ⟨by decide, rfl⟩
  · rintro (⟨ho, hn⟩ | ⟨ho, rfl⟩)
    · have hnb : (BitVec.ofNat 3 n).toNat = n := Nat.mod_eq_of_lt (by omega)
      have hwf : decide ((BitVec.ofNat 3 n).toNat ≤ 4) = true := decide_eq_true (hnb.symm ▸ hn)
      obtain rfl | rfl : o = 0x30 ∨ o = 0x31 := by simpa using ho
      · exact ⟨.lepack (BitVec.ofNat 3 n), hwf, rfl, hnb⟩
      · exact ⟨.leunpack (BitVec.ofNat 3 n), hwf, rfl, hnb⟩
    · obtain ⟨i, hi, rfl⟩ : ∃ i ∈ commands.take 15, i.opc.toNat = o := List.mem_map.mp ho
      obtain ⟨hwf, hnb⟩ := plain_command hi
      exact ⟨i, hwf, rfl, by rw [hnb]; rfl⟩

/-- Settles O1: the words and the table of codes are closed terms. -/
theorem commandWordsDecode : Obligations.CommandWordsDecode := by
  unfold Obligations.CommandWordsDecode
  exact ⟨by decide, by decide⟩

end Sys2Proof

namespace Sys2Proof.Machine

open Sys2Proof.Statements

/-! ### Illegal words -/

theorem State.complete_error {s : State} {c : Completion} (h : c ≠ .ok) : s.complete c = raised s c := by
  simp [State.complete, Status.complete, raised, h]

theorem runCommand_of_illegal {w : Word} (h : ¬ ∃ i, decode w = .ok i) (s : State) :
    runCommand w s = .next (s.complete .illegalCommand) := by
  unfold runCommand
  split
  case h_1 i hi => exact absurd ⟨i, hi⟩ h
  case h_2 => rfl

/-- Settles O3: a legal word has the fields of a well-formed command, whose codes are the two lists; the step on any
other word is `runCommand`, which raises IllegalCommand. -/
theorem legalWordsAndIllegalOnes : Obligations.LegalWordsAndIllegalOnes := by
  intro w
  refine ⟨exists_decode_iff.trans (and_congr_right fun _ => wf_codes_iff), fun hw s rest h => ?_⟩
  rw [step_command h, runCommand_of_illegal hw, State.complete_error (by decide)]

end Sys2Proof.Machine
end

section
/-!
PROOFS. The byte-length calculator (41_byte_length.md R102, R103): the model's length functions are the spec's
arithmetic on numbers, and a command that sets R0 changes STATUS.CODE besides and nothing else.
-/

namespace Sys2Proof.Machine

open Sys2Proof.Statements

/-! ### The length functions on numbers (41_byte_length.md R100, R101) -/

theorem blenF_eq_byteLenF (v : Word) : (blenF v).val = byteLenF v.toNat := by
  simp only [blenF, byteLenF, apply_ite Fin.val]
  rfl

theorem blenC_eq_byteLenC {v : Word} (h : v.toNat ≤ 0xFFFFFF) :
    ∃ n, blenC v = some n ∧ n.val = byteLenC v.toNat := by
  simp only [blenC, byteLenC, if_neg (show ¬ compactMax < v.toNat from Nat.not_lt.mpr h)]
  split_ifs <;> exact ⟨_, rfl, rfl⟩

/-! ### The commands -/

/-- How a command that only sets R0 ends (60_exceptions.md R203). -/
theorem State.setR0_complete_ok (s : State) (w : Word) :
    (s.setR0 w).complete .ok = { s with r0 := w, status := okStatus s } :=
  congrArg (fun st => { s.setR0 w with status := st }) (Status.complete_ok s.status)

theorem exec_blenF (s : State) :
    exec .blenF s = .next ((s.setR0 (BitVec.ofNat 32 (blenF s.v0).val)).complete .ok) := rfl

theorem exec_blenC_of_some {s : State} {n : Len} (h : blenC s.v0 = some n) :
    exec .blenC s = .next ((s.setR0 (BitVec.ofNat 32 n.val)).complete .ok) := by
  simp only [exec, execBlenC, h, State.finish_ok]

theorem exec_blenC_of_none {s : State} (h : blenC s.v0 = none) :
    exec .blenC s = .next (s.complete .valueOutOfRange) := by
  simp only [exec, execBlenC, h, State.finish_error]

/-- Settles O29: the command always ends with R0 set to the length, which is `byteLenF` of V0. -/
theorem blenFResult : Obligations.BlenFResult := by
  refine ⟨decode_encode (i := .blenF) rfl, fun s => ?_⟩
  rw [exec_blenF, State.setR0_complete_ok, blenF_eq_byteLenF]

/-- Settles O30: in the compact range the length is defined and is `byteLenC` of V0; above it there is no length, and
the command raises. -/
theorem blenCResult : Obligations.BlenCResult := by
  refine ⟨decode_encode (i := .blenC) rfl, fun s => ⟨fun h => ?inRange, fun h => ?above⟩⟩
  case inRange =>
    obtain ⟨n, hn, hlen⟩ := blenC_eq_byteLenC h
    rw [exec_blenC_of_some hn, State.setR0_complete_ok, hlen]
  case above =>
    rw [exec_blenC_of_none (blenC_of_gt h), State.complete_error (by decide)]

end Sys2Proof.Machine
end

section
/-!
PROOFS. The continuation-bit codec (42_varint.md R110 to R117). What a memory command that ends with OK leaves is said
over the statements' own words (`movedOk`, `Stored`, `groupByte`, `Sequence`, `groupsValue`); then the three commands
follow from the bounds check of VENC and the scan of VDEC and VSKIP.
-/

namespace Sys2Proof.Machine

open Sys2Proof.Statements

/-! ### vlen (42_varint.md R110) -/

/-- A value fits `vlen` groups, and where there is more than one it does not fit one group less. -/
theorem vlen_bounds (v : Word) :
    1 ≤ vlen v ∧ vlen v ≤ 5 ∧ v.toNat < 2 ^ (7 * vlen v) ∧ (1 < vlen v → 2 ^ (7 * (vlen v - 1)) ≤ v.toNat) := by
  have hv : v.toNat < 2 ^ 32 := v.isLt
  rcases vlen_cases v with ⟨h, hb⟩ | ⟨h, hb⟩ | ⟨h, hb⟩ | ⟨h, hb⟩ | ⟨h, hb⟩ <;>
  · rw [h]
    norm_num
    omega

/-- Settles O31: a smaller count of groups would leave the value no room. -/
theorem vlenIsLeast : Obligations.VlenIsLeast := by
  intro v
  obtain ⟨hpos, hle, hfits, hleast⟩ := vlen_bounds v
  refine ⟨hpos, hle, hfits, fun n hn hv => ?_⟩
  by_contra hlt
  have hpow : 2 ^ (7 * n) ≤ 2 ^ (7 * (vlen v - 1)) := Nat.pow_le_pow_right (by decide) (by omega)
  have := hleast (by omega)
  omega

/-! ### How a memory command ends with OK (20_memory.md R58, 60_exceptions.md R203) -/

theorem State.moved_complete_ok (s : State) (c : Nat) : (s.moved c).complete .ok = movedOk s c :=
  congrArg (fun st => { s.moved c with status := st }) (Status.complete_ok s.status)

theorem State.storeBytes_moved_complete_ok (s : State) (bs : List Byte) (c : Nat) :
    ((s.storeBytes 0 bs).moved c).complete .ok = { movedOk s c with mem := (s.storeBytes 0 bs).mem } :=
  (s.storeBytes 0 bs).moved_complete_ok c

theorem State.setR0_moved_complete_ok (s : State) (w : Word) (c : Nat) :
    ((s.setR0 w).moved c).complete .ok = { movedOk s c with r0 := w } :=
  (s.setR0 w).moved_complete_ok c

/-- Bytes stored at the start of a window that has room for them. -/
theorem State.stored_storeBytes {s : State} {bs : List Byte} (hl : bs.length ≤ s.lenA) :
    Stored s bs (s.storeBytes 0 bs).mem := by
  constructor
  · intro i hi
    exact storeBytes_windowByte hi hl
  · intro a ha
    exact storeBytes_read_outside fun i hi => by rw [Nat.zero_add]; exact ha i hi

/-- The window then starts with those bytes. -/
theorem State.storeBytes_windowBytes {s : State} {bs : List Byte} {n : Nat} (hn : bs.length = n) (hl : n ≤ s.lenA) :
    (s.storeBytes 0 bs).windowBytes 0 n = bs := by
  subst hn
  refine List.ext_getElem (windowBytes_length _ _ _) fun i _ hi => ?_
  simpa [State.windowBytes] using storeBytes_windowByte hi hl

/-! ### VENC (42_varint.md R111, R114) -/

theorem canonicalByte_eq_groupByte (v : Word) (n i : Nat) : canonicalByte v n i = groupByte v n i := by
  have hgroup : v.toNat / 128 ^ (n - 1 - i) % 128 < 128 := Nat.mod_lt _ (by decide)
  have hlast : i < n - 1 ↔ i + 1 < n := by omega
  have hbyte : (if i + 1 < n then 128 else 0) + v.toNat / 128 ^ (n - 1 - i) % 128 < 2 ^ 8 := by split <;> omega
  apply BitVec.eq_of_toNat_eq
  rw [canonicalByte_toNat, groupByte, BitVec.toNat_ofNat, Nat.mod_eq_of_lt hbyte]
  simp only [hlast]

theorem canonicalBytes_eq_groupBytes (v : Word) :
    canonicalBytes v = (List.range (vlen v)).map (groupByte v (vlen v)) :=
  List.map_congr_left fun i _ => canonicalByte_eq_groupByte v (vlen v) i

theorem exec_venc_of_le {s : State} (h : vlen s.v0 ≤ s.lenA) :
    exec .venc s =
      .next { movedOk s (vlen s.v0) with mem := (s.storeBytes 0 (canonicalBytes s.v0)).mem } := by
  rw [← State.storeBytes_moved_complete_ok, exec, execVenc, State.need_of_le h]
  rfl

theorem exec_venc_of_lt {s : State} (h : s.lenA < vlen s.v0) : exec .venc s = .next (raised s .insufficientBuffer) := by
  rw [← State.complete_error (by decide), exec, execVenc, State.need_of_lt h]
  rfl

/-- Settles O32: with room for them the canonical bytes are stored, and they are the statement's; else the check
raises. -/
theorem vencResult : Obligations.VencResult := by
  refine ⟨decode_encode (i := .venc) rfl, fun s => ⟨fun h => ⟨_, exec_venc_of_le h, ?_⟩, exec_venc_of_lt⟩⟩
  rw [← canonicalBytes_eq_groupBytes]
  exact State.stored_storeBytes ((canonicalBytes_length s.v0).trans_le h)

/-! ### Sequences and their values (30_encoding.md R80, 42_varint.md R112) -/

theorem sequenceOf_iff {s : State} {n : Nat} : s.sequenceOf n ↔ Sequence s n := by
  simp only [State.sequenceOf, Sequence, continues_iff, continues_false_iff]

theorem State.windowBytes_succ (s : State) (k n : Nat) :
    s.windowBytes k (n + 1) = s.windowBytes k n ++ [s.windowByte (k + n)] := by
  simp [State.windowBytes, List.range_succ]

theorem State.accumulated_succ (s : State) (n : Nat) :
    s.accumulated (n + 1) = accumulateGroup (s.accumulated n) (s.windowByte n) := by
  simp [State.accumulated, State.windowBytes_succ]

/-- One more byte moves the groups before it up by 7 bits. -/
theorem groupsValue_succ (s : State) (n : Nat) :
    groupsValue s (n + 1) = groupsValue s n * 128 + (s.windowByte n).toNat % 128 := by
  have hshift : ∀ i ∈ List.range n, (s.windowByte i).toNat % 128 * 128 ^ (n + 1 - 1 - i) =
      (s.windowByte i).toNat % 128 * 128 ^ (n - 1 - i) * 128 := by
    intro i hi
    have hi : i < n := List.mem_range.mp hi
    rw [Nat.mul_assoc, ← Nat.pow_succ, show n + 1 - 1 - i = n - 1 - i + 1 by omega]
  rw [groupsValue, List.range_succ, List.map_append, List.sum_append, List.map_congr_left hshift,
    List.sum_map_mul_right]
  simp [groupsValue]

/-- The accumulator holds the low 32 bits of the concatenated groups. -/
theorem State.accumulated_eq (s : State) (n : Nat) : s.accumulated n = BitVec.ofNat 32 (groupsValue s n) := by
  induction n with
  | zero => rfl
  | succ n ih =>
    apply BitVec.eq_of_toNat_eq
    rw [State.accumulated_succ, accumulateGroup_toNat, ih, groupsValue_succ, BitVec.toNat_ofNat, BitVec.toNat_ofNat]
    omega

/-- The sequence's groups fit 32 bits (42_varint.md R112). -/
theorem State.overlong_eq_false_iff {s : State} {n : Nat} :
    s.overlong n = false ↔ n < 5 ∨ (n = 5 ∧ (s.windowByte 0).toNat % 128 < 16) := by
  have hbits : (s.windowByte 0).extractLsb' 4 3 = 0 ↔ (s.windowByte 0).toNat % 128 < 16 := by
    rw [← BitVec.toNat_inj, BitVec.extractLsb'_toNat, Nat.shiftRight_eq_div_pow]
    simp
    omega
  simp only [State.overlong, Bool.or_eq_false_iff, Bool.and_eq_false_iff, decide_eq_false_iff_not, beq_eq_false_iff_ne,
    bne_eq_false_iff_eq, hbits]
  omega

theorem State.decodedValue_of_fixed {s : State} {n : Nat} (acc : Word)
    (h : s.cfg.vdecOverlong = .wrap32 ∨ s.overlong n = false) : s.decodedValue acc n = acc := by
  rcases h with h | h
  · simp [State.decodedValue, h]
  · cases hp : s.cfg.vdecOverlong <;> simp [State.decodedValue, hp, h]

/-! ### VDEC and VSKIP (42_varint.md R115, R116) -/

theorem exec_vdec_of_scan {s : State} {acc : Word} {n : Nat} (h : s.scan = .ok (acc, n)) :
    exec .vdec s = .next { movedOk s n with r0 := s.decodedValue acc n } := by
  rw [← State.setR0_moved_complete_ok, exec, execVdec, h]
  rfl

theorem exec_vdec_of_scan_error {s : State} {e : Completion} (h : s.scan = .error e) :
    exec .vdec s = .next (s.complete e) := by
  rw [exec, execVdec, h]
  rfl

theorem exec_vskip_of_scan {s : State} {acc : Word} {n : Nat} (h : s.scan = .ok (acc, n)) :
    exec .vskip s = .next (movedOk s n) := by
  rw [← State.moved_complete_ok, exec, execVskip, h]
  rfl

theorem exec_vskip_of_scan_error {s : State} {e : Completion} (h : s.scan = .error e) :
    exec .vskip s = .next (s.complete e) := by
  rw [exec, execVskip, h]
  rfl

/-- Settles O33: the scan gives the low 32 bits of the groups, which VDEC returns unless the value is free. -/
theorem vdecResult : Obligations.VdecResult := by
  refine ⟨decode_encode (i := .vdec) rfl, fun s => ⟨fun n hseq => ?sequence, fun h => ?empty, fun h0 h => ?unended⟩⟩
  case sequence =>
    refine ⟨_, exec_vdec_of_scan (State.scan_of_sequence (sequenceOf_iff.mpr hseq)), fun hfixed => ?_⟩
    rw [State.decodedValue_of_fixed _ (hfixed.imp_right State.overlong_eq_false_iff.mpr), State.accumulated_eq]
  case empty => rw [exec_vdec_of_scan_error (State.scan_of_empty h), State.complete_error (by decide)]
  case unended =>
    have hc : ∀ k, k < s.lenA → continues (s.windowByte k) = true := fun k hk => (continues_iff _).mpr (h k hk)
    rw [exec_vdec_of_scan_error (State.scan_of_unterminated h0 hc), State.complete_error (by decide)]

/-- Both commands end as the scan ends, and VSKIP leaves R0. -/
theorem exec_vskip_of_vdec {s t : State} (h : exec .vdec s = .next t) : exec .vskip s = .next { t with r0 := s.r0 } := by
  cases hscan : s.scan with
  | ok r =>
    obtain rfl : _ = t := by simpa [exec_vdec_of_scan hscan] using h
    exact exec_vskip_of_scan hscan
  | error e =>
    obtain rfl : s.complete e = t := by simpa [exec_vdec_of_scan_error hscan] using h
    exact exec_vskip_of_scan_error hscan

/-- Settles O34: each case is VDEC's with R0 as before, so what VDEC puts in R0 does not matter. -/
theorem vskipResult : Obligations.VskipResult := by
  obtain ⟨-, hvdec⟩ := vdecResult
  refine ⟨decode_encode (i := .vskip) rfl, fun s => ?_, fun s t => exec_vskip_of_vdec⟩
  obtain ⟨hsequence, hempty, hunended⟩ := hvdec s
  refine ⟨fun n hseq => ?_, fun h => exec_vskip_of_vdec (hempty h), fun h0 h => exec_vskip_of_vdec (hunended h0 h)⟩
  obtain ⟨r, hr, -⟩ := hsequence n hseq
  exact exec_vskip_of_vdec hr

/-! ### The round trip (42_varint.md R117) -/

/-- The window starts with the canonical encoding of `v`. -/
structure State.HoldsCanonical (s : State) (v : Word) : Prop where
  room : vlen v ≤ s.lenA
  bytes : s.windowBytes 0 (vlen v) = canonicalBytes v

namespace State.HoldsCanonical

variable {s : State} {v : Word}

theorem windowByte (h : s.HoldsCanonical v) {i : Nat} (hi : i < vlen v) :
    s.windowByte i = canonicalByte v (vlen v) i := by
  have := List.map_inj_left.mp h.bytes i (List.mem_range.mpr hi)
  rwa [Nat.zero_add] at this

theorem sequenceOf (h : s.HoldsCanonical v) : s.sequenceOf (vlen v) := by
  obtain ⟨hpos, -⟩ := vlen_bounds v
  refine ⟨hpos, h.room, fun i hi => ?_, ?_⟩
  · rw [h.windowByte (by omega), continues_canonicalByte, decide_eq_true (by omega)]
  · rw [h.windowByte (by omega), continues_canonicalByte, decide_eq_false (by omega)]

theorem not_overlong (h : s.HoldsCanonical v) : s.overlong (vlen v) = false := by
  obtain ⟨hpos, hle, -⟩ := vlen_bounds v
  rw [State.overlong_eq_false_iff, h.windowByte hpos]
  rcases Nat.lt_or_eq_of_le hle with hlt | h5
  · exact .inl hlt
  · rw [h5]
    exact .inr ⟨rfl, canonicalByte_five_first v⟩

theorem accumulated (h : s.HoldsCanonical v) : s.accumulated (vlen v) = v := by
  rw [State.accumulated, h.bytes, foldl_canonicalBytes]

/-- VDEC reads a canonical encoding back, under either value of VDEC_OVERLONG. -/
theorem exec_vdec (h : s.HoldsCanonical v) : exec .vdec s = .next { movedOk s (vlen v) with r0 := v } := by
  rw [exec_vdec_of_scan (State.scan_of_sequence h.sequenceOf), h.accumulated,
    State.decodedValue_of_fixed _ (.inr h.not_overlong)]

end State.HoldsCanonical

/-- After VENC and the host's rewind the window starts with what VENC stored. -/
theorem holdsCanonical_rewind_venc {s : State} (h : vlen s.v0 ≤ s.lenA) :
    (rewind s { movedOk s (vlen s.v0) with mem := (s.storeBytes 0 (canonicalBytes s.v0)).mem }).HoldsCanonical s.v0 :=
  ⟨h, State.storeBytes_windowBytes (canonicalBytes_length s.v0) h⟩

/-- Settles O35: after VENC and the host's rewind the window starts with the canonical encoding of V0. -/
theorem varintRoundTrip : Obligations.VarintRoundTrip := by
  intro s t h hok
  rcases Nat.lt_or_ge s.lenA (vlen s.v0) with hlt | hle
  · rw [exec_venc_of_lt hlt] at h
    cases h
    exact absurd hok (by simp [raised])
  · rw [exec_venc_of_le hle] at h
    cases h
    exact ⟨_, (holdsCanonical_rewind_venc hle).exec_vdec, rfl, rfl, rfl⟩

end Sys2Proof.Machine
end

section
/-!
PROOFS. What the two quad schemes share (30_encoding.md R84, R85): the model's sizes, payload bytes and payload values
are the statements' arithmetic on numbers, the encoders' and the decoders' common bodies end as the bounds checks say,
and a decoder reads back the quad that the window starts with.
-/

namespace Sys2Proof.Machine

open Sys2Proof.Statements

/-! ### Sizes, payload bytes and payload values on numbers (20_memory.md R52) -/

theorem quadSize_eq_quadTotal (l : Quad Len) : quadSize l = quadTotal (l.map Fin.val) := rfl

theorem quadSize_pos (l : Quad Len) : 0 < quadSize l := by
  unfold quadSize
  omega

theorem leBytes_eq_littleEndian (n : Nat) (v : Word) : leBytes n v = littleEndian n v := by
  refine List.map_congr_left fun i _ => BitVec.eq_of_toNat_eq ?_
  rw [BitVec.extractLsb'_toNat, BitVec.toNat_ofNat, Nat.shiftRight_eq_div_pow, Nat.pow_mul]

theorem quadBytes_eq_quadImage (h : Byte) (l : Quad Len) (s : State) :
    quadBytes h l s.operands = quadImage h.toNat (l.map Fin.val) s := by
  simp only [quadBytes, quadImage, leBytes_eq_littleEndian, BitVec.ofNat_toNat, BitVec.setWidth_eq]
  rfl

theorem State.windowBytes_cons (s : State) (j n : Nat) :
    s.windowBytes j (n + 1) = s.windowByte j :: s.windowBytes (j + 1) n := by
  simp [State.windowBytes, List.range_succ_eq_map, Nat.add_assoc, Nat.add_comm 1]

/-- The first byte is the least significant one. -/
theorem bytesValue_succ (s : State) (j n : Nat) :
    bytesValue s j (n + 1) = (s.windowByte j).toNat + bytesValue s (j + 1) n * 256 := by
  simp [bytesValue, List.range_succ_eq_map, Nat.add_assoc, Nat.add_comm 1, Nat.pow_succ, ← Nat.mul_assoc,
    List.sum_map_mul_right, Function.comp_def]

/-- A read of the window is the little-endian value of its bytes. -/
theorem State.memRead_eq_bytesValue (s : State) (j n : Nat) : s.memRead j n = BitVec.ofNat 32 (bytesValue s j n) := by
  induction n generalizing j with
  | zero => rfl
  | succ n ih =>
    apply BitVec.eq_of_toNat_eq
    have hrest : (leValue (s.windowBytes (j + 1) n)).toNat = bytesValue s (j + 1) n % 2 ^ 32 := by
      rw [← BitVec.toNat_ofNat, ← ih]
      rfl
    rw [State.memRead, State.windowBytes_cons, leValue_cons_toNat, hrest, bytesValue_succ, BitVec.toNat_ofNat]
    omega

theorem State.unpack_eq_bytesValue {s : State} (htab : s.tablesFixed) (j : Nat) (n : Len) :
    s.unpack j n = BitVec.ofNat 32 (bytesValue s j n.val) := by
  rw [State.unpack_eq_memRead htab, State.memRead_eq_bytesValue]

/-! ### The low byte of a register (43_quad_fixed.md R134, R135) -/

theorem lowByte_toNat (w : Word) : (w.extractLsb' 0 8).toNat = w.toNat % 256 := by
  rw [BitVec.extractLsb'_toNat, Nat.shiftRight_zero]

theorem lowByte_setWidth (b : Byte) : (b.setWidth 32).extractLsb' 0 8 = b := by
  apply BitVec.eq_of_toNat_eq
  rw [lowByte_toNat, BitVec.toNat_setWidth]
  omega

/-! ### How a command that sets R0..R3 ends (60_exceptions.md R203, 20_memory.md R58) -/

theorem State.setResults_complete_ok (s : State) (r : Quad Word) :
    (s.setResults r).complete .ok = { s with r0 := r.s1, r1 := r.s2, r2 := r.s3, r3 := r.s4, status := okStatus s } :=
  congrArg (fun st => { s.setResults r with status := st }) (Status.complete_ok s.status)

theorem State.setResults_moved_complete_ok (s : State) (r : Quad Word) (c : Nat) :
    ((s.setResults r).moved c).complete .ok =
      { movedOk s c with r0 := r.s1, r1 := r.s2, r2 := r.s3, r3 := r.s4 } :=
  (s.setResults r).moved_complete_ok c

/-! ### The encoders' body (43_quad_fixed.md R136, 44_quad_compact.md R156) -/

theorem State.finish_encodeQuad_of_le {s : State} {h : Byte} {l : Quad Len} (hle : quadSize l ≤ s.lenA) :
    s.finish (s.encodeQuad h l) =
      .next { movedOk s (quadSize l) with mem := (s.storeBytes 0 (quadBytes h l s.operands)).mem } := by
  rw [← State.storeBytes_moved_complete_ok, State.encodeQuad, State.need_of_le hle]
  rfl

theorem State.finish_encodeQuad_of_lt {s : State} {h : Byte} {l : Quad Len} (hlt : s.lenA < quadSize l) :
    s.finish (s.encodeQuad h l) = .next (raised s .insufficientBuffer) := by
  rw [← State.complete_error (by decide), State.encodeQuad, State.need_of_lt hlt]
  rfl

/-- What is stored is the quad's image. -/
theorem State.stored_quadBytes {s : State} {h : Byte} {l : Quad Len} (hle : quadSize l ≤ s.lenA) :
    Stored s (quadImage h.toNat (l.map Fin.val) s) (s.storeBytes 0 (quadBytes h l s.operands)).mem := by
  rw [← quadBytes_eq_quadImage]
  exact State.stored_storeBytes ((quadBytes_length h l s.operands).trans_le hle)

/-! ### The decoders' body (43_quad_fixed.md R137, 44_quad_compact.md R157) -/

section
variable {s : State} {rom : Vector (Quad Len) 256}

theorem State.finish_decodeQuad_of_empty (h : s.lenA = 0) :
    s.finish (s.decodeQuad rom) = .next (raised s .insufficientBuffer) := by
  rw [← State.complete_error (by decide), State.decodeQuad, State.haveBytes_of_empty (by decide) h]
  rfl

variable {l : Quad Len} (hl : rom.get (s.windowByte 0).toFin = l)
include hl

/-- Past the header the body checks the whole quad, then reads the payloads. -/
theorem State.decodeQuad_of_nonempty (h0 : 0 < s.lenA) :
    s.decodeQuad rom =
      (do s.haveBytes (quadSize l); .ok ((s.setResults (s.unpackQuad l)).moved (quadSize l))) := by
  subst hl
  rw [State.decodeQuad, State.haveBytes_of_le h0]
  rfl

theorem State.finish_decodeQuad_of_short (h0 : 0 < s.lenA) (h : s.lenA < quadSize l) :
    s.finish (s.decodeQuad rom) = .next (raised s .truncatedInput) := by
  rw [← State.complete_error (by decide), State.decodeQuad_of_nonempty hl h0, State.haveBytes_of_short h0 h]
  rfl

theorem State.finish_decodeQuad_of_le (h : quadSize l ≤ s.lenA) :
    s.finish (s.decodeQuad rom) = .next (((s.setResults (s.unpackQuad l)).moved (quadSize l)).complete .ok) := by
  rw [State.decodeQuad_of_nonempty hl ((quadSize_pos l).trans_le h), State.haveBytes_of_le h]
  rfl

end

/-! ### A decoder reads back the quad in the window -/

theorem State.windowBytes_add (s : State) (j m n : Nat) :
    s.windowBytes j (m + n) = s.windowBytes j m ++ s.windowBytes (j + m) n := by
  simp [State.windowBytes, List.range_add, Nat.add_assoc]

/-- A value whose low bytes are in the window, and which they hold whole, is what the unpacker returns. -/
theorem State.unpack_of_leBytes {s : State} {j : Nat} {n : Len} {v : Word} (htab : s.tablesFixed)
    (hb : s.windowBytes j n.val = leBytes n.val v) (hv : v.toNat < 256 ^ n.val) : s.unpack j n = v := by
  rw [State.unpack_eq_memRead htab, State.memRead, hb, leValue_leBytes_of_fits (by omega) hv]

/-- The window starts with the quad of `v` under header `h` and slot lengths `l`, and the lengths fit the values. -/
structure State.HoldsQuad (s : State) (h : Byte) (l : Quad Len) (v : Quad Word) : Prop where
  room : quadSize l ≤ s.lenA
  bytes : s.windowBytes 0 (quadSize l) = quadBytes h l v
  fits1 : v.s1.toNat < 256 ^ l.s1.val
  fits2 : v.s2.toNat < 256 ^ l.s2.val
  fits3 : v.s3.toNat < 256 ^ l.s3.val
  fits4 : v.s4.toNat < 256 ^ l.s4.val

namespace State.HoldsQuad

variable {s : State} {h : Byte} {l : Quad Len} {v : Quad Word}

/-- The header and the four payloads, each where the decoder reads it. -/
theorem parts (hq : s.HoldsQuad h l v) :
    s.windowByte 0 = h ∧
    s.windowBytes 1 l.s1.val = leBytes l.s1.val v.s1 ∧
    s.windowBytes (1 + l.s1.val) l.s2.val = leBytes l.s2.val v.s2 ∧
    s.windowBytes (1 + l.s1.val + l.s2.val) l.s3.val = leBytes l.s3.val v.s3 ∧
    s.windowBytes (1 + l.s1.val + l.s2.val + l.s3.val) l.s4.val = leBytes l.s4.val v.s4 := by
  have hb := hq.bytes
  rw [quadSize, State.windowBytes_add, State.windowBytes_add, State.windowBytes_add, State.windowBytes_add, quadBytes,
    ← List.singleton_append, ← List.append_assoc, ← List.append_assoc, ← List.append_assoc] at hb
  simp only [Nat.zero_add] at hb
  obtain ⟨hb, h4⟩ := List.append_inj' hb (by simp)
  obtain ⟨hb, h3⟩ := List.append_inj' hb (by simp)
  obtain ⟨hb, h2⟩ := List.append_inj' hb (by simp)
  obtain ⟨hb, h1⟩ := List.append_inj' hb (by simp)
  exact ⟨List.singleton_inj.mp hb, h1, h2, h3, h4⟩

theorem unpackQuad (hq : s.HoldsQuad h l v) (htab : s.tablesFixed) : s.unpackQuad l = v := by
  obtain ⟨-, h1, h2, h3, h4⟩ := hq.parts
  rw [State.unpackQuad, State.unpack_of_leBytes htab h1 hq.fits1, State.unpack_of_leBytes htab h2 hq.fits2,
    State.unpack_of_leBytes htab h3 hq.fits3, State.unpack_of_leBytes htab h4 hq.fits4]

/-- With a table that gives the header's lengths back, the decoders' body returns the values. -/
theorem finish_decodeQuad (hq : s.HoldsQuad h l v) (htab : s.tablesFixed) {rom : Vector (Quad Len) 256}
    (hl : rom.get h.toFin = l) :
    s.finish (s.decodeQuad rom) =
      .next { movedOk s (quadSize l) with r0 := v.s1, r1 := v.s2, r2 := v.s3, r3 := v.s4 } := by
  obtain ⟨h0, -⟩ := hq.parts
  rw [State.finish_decodeQuad_of_le (h0.symm ▸ hl) hq.room, hq.unpackQuad htab, State.setResults_moved_complete_ok]

end State.HoldsQuad

end Sys2Proof.Machine
end

section
/-!
PROOFS. The fixed-slot quad codec (43_quad_fixed.md R130 to R139): lengths, header and ROM_F as the statements' numbers,
then the five commands, and the two round trips of header and quad.
-/

namespace Sys2Proof.Machine

open Sys2Proof.Statements

/-! ### Lengths, header and ROM_F on numbers (43_quad_fixed.md R130 to R132) -/

theorem lensF_operands_val (s : State) : (lensF s.operands).map Fin.val = ofOperands byteLenF s := by
  simp only [lensF, State.operands, Quad.map, ofOperands, blenF_eq_byteLenF]

theorem quadSize_lensF (s : State) : quadSize (lensF s.operands) = quadTotal (ofOperands byteLenF s) := by
  rw [quadSize_eq_quadTotal, lensF_operands_val]

theorem hdrF_lensF_toNat (s : State) :
    (hdrF (lensF s.operands)).toNat = headerOf (minusOne (ofOperands byteLenF s)) := by
  rw [← lensF_operands_val, hdrF_toNat]
  rfl

theorem byteLenF_bounds (v : Nat) : 1 ≤ byteLenF v ∧ byteLenF v ≤ 4 := by
  unfold byteLenF
  split_ifs <;> decide

theorem romF_get_byte {s : State} (htab : s.tablesFixed) (b : Byte) :
    (s.romF.get b.toFin).map Fin.val = plusOne (fieldsOf b.toNat) := by
  obtain ⟨hF, -, -⟩ := htab
  rw [hF]
  exact romFContents_get b.toFin

/-- ROM_F gives back the lengths that the header was built from. -/
theorem romF_get_hdrF {s : State} (htab : s.tablesFixed) (v : Quad Word) :
    s.romF.get (hdrF (lensF v)).toFin = lensF v := by
  obtain ⟨hF, -, -⟩ := htab
  rw [hF, romFContents, tableOf_get]
  exact entryF_hdrF (blenF_pos _) (blenF_pos _) (blenF_pos _) (blenF_pos _)

/-! ### The commands that leave memory alone (43_quad_fixed.md R133 to R135) -/

theorem exec_qsizeF (s : State) :
    exec .qsizeF s =
      .next { s with r0 := BitVec.ofNat 32 (quadTotal (ofOperands byteLenF s)), status := okStatus s } := by
  rw [← State.setR0_complete_ok, ← quadSize_lensF]
  rfl

/-- Settles O36: the size is that of the operands' lengths, each from 1 to 4. -/
theorem qsizeFResult : Obligations.QsizeFResult := by
  refine ⟨decode_encode (i := .qsizeF) rfl, fun s => ⟨exec_qsizeF s, ?_⟩⟩
  have h0 := byteLenF_bounds s.v0.toNat
  have h1 := byteLenF_bounds s.v1.toNat
  have h2 := byteLenF_bounds s.v2.toNat
  have h3 := byteLenF_bounds s.v3.toNat
  simp only [quadTotal, ofOperands]
  omega

theorem exec_hencF (s : State) :
    exec .hencF s = .next { s with r0 := (hdrF (lensF s.operands)).setWidth 32, status := okStatus s } := by
  rw [← State.setR0_complete_ok]
  rfl

/-- Settles O37: the header's number is that of the lengths less one. -/
theorem hencFResult : Obligations.HencFResult := by
  refine ⟨decode_encode (i := .hencF) rfl, fun s => ?_⟩
  rw [exec_hencF, ← hdrF_lensF_toNat, BitVec.ofNat_toNat]

/-- HDEC.F looks the low byte of V0 up in ROM_F. -/
theorem exec_hdecF {s : State} {l : Quad Len} (hl : s.romF.get (s.v0.extractLsb' 0 8).toFin = l) :
    exec .hdecF s = .next { s with
      r0 := BitVec.ofNat 32 l.s1.val, r1 := BitVec.ofNat 32 l.s2.val
      r2 := BitVec.ofNat 32 l.s3.val, r3 := BitVec.ofNat 32 l.s4.val
      status := okStatus s } := by
  rw [exec, execHdecF, hl, State.finish_ok, State.setResults_complete_ok]
  rfl

/-- Settles O38: ROM_F holds the fields of the low byte plus one. -/
theorem hdecFResult : Obligations.HdecFResult := by
  refine ⟨decode_encode (i := .hdecF) rfl, fun s htab => ?_⟩
  rw [← lowByte_toNat, ← romF_get_byte htab]
  exact exec_hdecF rfl

/-- Settles O41: HENC.F leaves its header in R0, where ROM_F has the lengths it was built from; the table by its
contents. -/
theorem fixedHeaderConsistency : Obligations.FixedHeaderConsistency := by
  intro s t htab h
  rw [exec_hencF] at h
  cases h
  refine ⟨?_, fun i => romF_get_byte htab (BitVec.ofFin i)⟩
  simp only [← blenF_eq_byteLenF]
  refine exec_hdecF (l := lensF s.operands) ?_
  rw [lowByte_setWidth]
  exact romF_get_hdrF htab s.operands

/-! ### QENC.F and QDEC.F (43_quad_fixed.md R136, R137) -/

theorem exec_qencF_of_le {s : State} (h : quadSize (lensF s.operands) ≤ s.lenA) :
    exec .qencF s = .next { movedOk s (quadSize (lensF s.operands)) with
      mem := (s.storeBytes 0 (quadBytes (hdrF (lensF s.operands)) (lensF s.operands) s.operands)).mem } :=
  State.finish_encodeQuad_of_le h

theorem exec_qencF_of_lt {s : State} (h : s.lenA < quadSize (lensF s.operands)) :
    exec .qencF s = .next (raised s .insufficientBuffer) :=
  State.finish_encodeQuad_of_lt h

/-- Settles O39: with room for it the quad's bytes are stored, and they are the statement's image; else the check
raises. -/
theorem qencFResult : Obligations.QencFResult := by
  refine ⟨decode_encode (i := .qencF) rfl, fun s => ?_⟩
  dsimp only
  rw [← quadSize_lensF, ← hdrF_lensF_toNat, ← lensF_operands_val]
  exact ⟨fun h => ⟨_, exec_qencF_of_le h, State.stored_quadBytes h⟩, exec_qencF_of_lt⟩

/-- Settles O40: the lengths are those of ROM_F at the first byte; each case of LEN is one of the bounds checks. -/
theorem qdecFResult : Obligations.QdecFResult := by
  refine ⟨decode_encode (i := .qdecF) rfl, fun s htab => ?_⟩
  dsimp only
  rw [← romF_get_byte htab, ← quadSize_eq_quadTotal]
  refine ⟨State.finish_decodeQuad_of_empty, State.finish_decodeQuad_of_short rfl, fun h => ?_⟩
  simp only [Quad.map, ← State.unpack_eq_bytesValue htab]
  exact (State.finish_decodeQuad_of_le rfl h).trans (congrArg _ (State.setResults_moved_complete_ok _ _ _))

/-! ### The round trip (43_quad_fixed.md R139) -/

/-- After QENC.F and the host's rewind the window starts with the operands' quad. -/
theorem holdsQuad_rewind_qencF {s t : State} (hle : quadSize (lensF s.operands) ≤ s.lenA)
    (ht : exec .qencF s = .next t) :
    (rewind s t).HoldsQuad (hdrF (lensF s.operands)) (lensF s.operands) s.operands := by
  rw [exec_qencF_of_le hle] at ht
  cases ht
  exact ⟨hle, State.storeBytes_windowBytes (quadBytes_length _ _ _) hle, blenF_fits _, blenF_fits _, blenF_fits _,
    blenF_fits _⟩

/-- Settles O42: QENC.F had room for the quad, so after the rewind the window starts with it; the three sizes are one
number. -/
theorem fixedQuadRoundTrip : Obligations.FixedQuadRoundTrip := by
  intro s t q htab ht hok hq
  rw [exec_qsizeF, ← quadSize_lensF] at hq
  cases hq
  rcases Nat.lt_or_ge s.lenA (quadSize (lensF s.operands)) with hlt | hle
  · rw [exec_qencF_of_lt hlt] at ht
    cases ht
    exact absurd hok (by simp [raised])
  · have hholds := holdsQuad_rewind_qencF hle ht
    rw [exec_qencF_of_le hle] at ht
    cases ht
    exact ⟨_, hholds.finish_decodeQuad htab (romF_get_hdrF htab s.operands), rfl, rfl, rfl, rfl, rfl, rfl, rfl⟩

end Sys2Proof.Machine
end

section
/-!
PROOFS. The compact quad codec (44_quad_compact.md R150 to R159): the range check and the lengths it gives, header and
ROM_C as the statements' numbers, then the five commands, and the two round trips of header and quad.
-/

namespace Sys2Proof.Machine

open Sys2Proof.Statements

/-! ### The range check and the lengths (44_quad_compact.md R150, 41_byte_length.md R101) -/

theorem byteLenC_le_three (v : Nat) : byteLenC v ≤ 3 := by
  unfold byteLenC
  split_ifs <;> decide

section
variable {v : Word} {n : Len} (h : blenC v = some n)
include h

/-- A compact length is defined in the compact range only. -/
theorem le_of_blenC_eq_some : v.toNat ≤ 0xFFFFFF := by
  by_contra hgt
  cases (blenC_of_gt (Nat.lt_of_not_le hgt)).symm.trans h

theorem val_of_blenC_eq_some : n.val = byteLenC v.toNat := by
  obtain ⟨m, hm, hval⟩ := blenC_eq_byteLenC (le_of_blenC_eq_some h)
  obtain rfl : m = n := Option.some.inj (hm.symm.trans h)
  exact hval

theorem fits_of_blenC_eq_some : v.toNat < 256 ^ n.val := by
  obtain ⟨m, hm, -, hfits⟩ := blenC_of_le (le_of_blenC_eq_some h)
  obtain rfl : m = n := Option.some.inj (hm.symm.trans h)
  exact hfits

end

/-- The range check passes exactly when V0..V3 are in the compact range. -/
theorem inCompactRange_iff {s : State} : InCompactRange s ↔ ∃ l, lensC s.operands = .ok l := by
  constructor
  · rintro ⟨h0, h1, h2, h3⟩
    obtain ⟨a, ha, -⟩ := blenC_of_le h0
    obtain ⟨b, hb, -⟩ := blenC_of_le h1
    obtain ⟨c, hc, -⟩ := blenC_of_le h2
    obtain ⟨d, hd, -⟩ := blenC_of_le h3
    exact ⟨⟨a, b, c, d⟩, lensC_ok_iff.mpr ⟨ha, hb, hc, hd⟩⟩
  · rintro ⟨l, hl⟩
    obtain ⟨h0, h1, h2, h3⟩ := lensC_ok_iff.mp hl
    exact ⟨le_of_blenC_eq_some h0, le_of_blenC_eq_some h1, le_of_blenC_eq_some h2, le_of_blenC_eq_some h3⟩

theorem lensC_of_not_inCompactRange {s : State} (h : ¬ InCompactRange s) :
    lensC s.operands = .error .valueOutOfRange :=
  (lensC_cases s.operands).resolve_left (mt inCompactRange_iff.mpr h)

/-- A command that checks the range first raises out of it, whatever comes after the check. -/
theorem State.finish_lensC_of_not_inCompactRange {s : State} {f : Quad Len → Except Completion State}
    (h : ¬ InCompactRange s) : s.finish (lensC s.operands >>= f) = .next (raised s .valueOutOfRange) := by
  rw [← State.complete_error (by decide), lensC_of_not_inCompactRange h]
  rfl

section
variable {s : State} {l : Quad Len} (hl : lensC s.operands = .ok l)
include hl

theorem lensC_operands_val : l.map Fin.val = ofOperands byteLenC s := by
  obtain ⟨h0, h1, h2, h3⟩ := lensC_ok_iff.mp hl
  simp only [Quad.map, val_of_blenC_eq_some h0, val_of_blenC_eq_some h1, val_of_blenC_eq_some h2,
    val_of_blenC_eq_some h3]
  rfl

theorem quadSize_lensC : quadSize l = quadTotal (ofOperands byteLenC s) := by
  rw [quadSize_eq_quadTotal, lensC_operands_val hl]

/-- No slot of a compact quad is longer than a 2-bit field says. -/
theorem lensC_le_three : l.s1.val ≤ 3 ∧ l.s2.val ≤ 3 ∧ l.s3.val ≤ 3 ∧ l.s4.val ≤ 3 := by
  obtain ⟨h0, h1, h2, h3⟩ := Quad.mk.inj (lensC_operands_val hl)
  rw [h0, h1, h2, h3]
  exact ⟨byteLenC_le_three _, byteLenC_le_three _, byteLenC_le_three _, byteLenC_le_three _⟩

/-! ### Header and ROM_C on numbers (44_quad_compact.md R151, R152) -/

theorem hdrC_lensC_toNat : (hdrC l).toNat = headerOf (ofOperands byteLenC s) := by
  obtain ⟨h1, h2, h3, h4⟩ := lensC_le_three hl
  rw [← lensC_operands_val hl, hdrC_toNat h1 h2 h3 h4]
  rfl

/-- ROM_C gives back the lengths that the header was built from. -/
theorem romC_get_hdrC {t : State} (htab : t.tablesFixed) : t.romC.get (hdrC l).toFin = l := by
  obtain ⟨-, hC, -⟩ := htab
  obtain ⟨h1, h2, h3, h4⟩ := lensC_le_three hl
  rw [hC, romCContents, tableOf_get]
  exact entryC_hdrC h1 h2 h3 h4

end

theorem romC_get_byte {s : State} (htab : s.tablesFixed) (b : Byte) :
    (s.romC.get b.toFin).map Fin.val = fieldsOf b.toNat := by
  obtain ⟨-, hC, -⟩ := htab
  rw [hC]
  exact romCContents_get b.toFin

/-! ### The commands that leave memory alone (44_quad_compact.md R153 to R155) -/

theorem exec_qsizeC_of_lensC {s : State} {l : Quad Len} (hl : lensC s.operands = .ok l) :
    exec .qsizeC s = .next { s with r0 := BitVec.ofNat 32 (quadSize l), status := okStatus s } := by
  rw [← State.setR0_complete_ok, exec, execQsizeC, hl]
  rfl

theorem exec_hencC_of_lensC {s : State} {l : Quad Len} (hl : lensC s.operands = .ok l) :
    exec .hencC s = .next { s with r0 := (hdrC l).setWidth 32, status := okStatus s } := by
  rw [← State.setR0_complete_ok, exec, execHencC, hl]
  rfl

/-- HDEC.C looks the low byte of V0 up in ROM_C. -/
theorem exec_hdecC {s : State} {l : Quad Len} (hl : s.romC.get (s.v0.extractLsb' 0 8).toFin = l) :
    exec .hdecC s = .next { s with
      r0 := BitVec.ofNat 32 l.s1.val, r1 := BitVec.ofNat 32 l.s2.val
      r2 := BitVec.ofNat 32 l.s3.val, r3 := BitVec.ofNat 32 l.s4.val
      status := okStatus s } := by
  rw [exec, execHdecC, hl, State.finish_ok, State.setResults_complete_ok]
  rfl

theorem quadTotal_byteLenC_bounds (s : State) :
    1 ≤ quadTotal (ofOperands byteLenC s) ∧ quadTotal (ofOperands byteLenC s) ≤ 13 := by
  have h0 := byteLenC_le_three s.v0.toNat
  have h1 := byteLenC_le_three s.v1.toNat
  have h2 := byteLenC_le_three s.v2.toNat
  have h3 := byteLenC_le_three s.v3.toNat
  simp only [quadTotal, ofOperands]
  omega

/-- Settles O43: in range the size is that of the operands' lengths, each at most 3; else the range check raises. -/
theorem qsizeCResult : Obligations.QsizeCResult := by
  refine ⟨decode_encode (i := .qsizeC) rfl, fun s => ⟨fun h => ?_, State.finish_lensC_of_not_inCompactRange⟩⟩
  obtain ⟨l, hl⟩ := inCompactRange_iff.mp h
  rw [exec_qsizeC_of_lensC hl, quadSize_lensC hl]
  exact ⟨rfl, quadTotal_byteLenC_bounds s⟩

/-- Settles O44: in range the header's number is that of the lengths; else the range check raises. -/
theorem hencCResult : Obligations.HencCResult := by
  refine ⟨decode_encode (i := .hencC) rfl, fun s => ⟨fun h => ?_, State.finish_lensC_of_not_inCompactRange⟩⟩
  obtain ⟨l, hl⟩ := inCompactRange_iff.mp h
  rw [exec_hencC_of_lensC hl, ← hdrC_lensC_toNat hl, BitVec.ofNat_toNat]

/-- Settles O45: ROM_C holds the fields of the low byte. -/
theorem hdecCResult : Obligations.HdecCResult := by
  refine ⟨decode_encode (i := .hdecC) rfl, fun s htab => ?_⟩
  rw [← lowByte_toNat, ← romC_get_byte htab]
  exact exec_hdecC rfl

/-- Settles O48: HENC.C leaves its header in R0, where ROM_C has the lengths it was built from; the table by its
contents. -/
theorem compactHeaderConsistency : Obligations.CompactHeaderConsistency := by
  intro s t htab hrange h
  obtain ⟨l, hl⟩ := inCompactRange_iff.mp hrange
  rw [exec_hencC_of_lensC hl] at h
  cases h
  refine ⟨?_, fun i => romC_get_byte htab (BitVec.ofFin i)⟩
  obtain ⟨h0, h1, h2, h3⟩ := Quad.mk.inj (lensC_operands_val hl)
  rw [← h0, ← h1, ← h2, ← h3]
  refine exec_hdecC ?_
  rw [lowByte_setWidth]
  exact romC_get_hdrC hl htab

/-! ### QENC.C and QDEC.C (44_quad_compact.md R156, R157) -/

/-- Past the range check QENC.C is the encoders' common body. -/
theorem exec_qencC_of_lensC {s : State} {l : Quad Len} (hl : lensC s.operands = .ok l) :
    exec .qencC s = s.finish (s.encodeQuad (hdrC l) l) := by
  rw [exec, execQencC, hl]
  rfl

/-- Settles O46: in range the common body stores the quad's bytes, which are the statement's image, or its check of the
space raises; out of range the check before it raises. -/
theorem qencCResult : Obligations.QencCResult := by
  refine ⟨decode_encode (i := .qencC) rfl, fun s => ⟨fun hrange => ?room, fun hrange => ?short,
    State.finish_lensC_of_not_inCompactRange⟩⟩
  all_goals
    obtain ⟨l, hl⟩ := inCompactRange_iff.mp hrange
    rw [exec_qencC_of_lensC hl, ← quadSize_lensC hl]
  case room =>
    rw [← hdrC_lensC_toNat hl, ← lensC_operands_val hl]
    exact fun h => ⟨_, State.finish_encodeQuad_of_le h, State.stored_quadBytes h⟩
  case short => exact State.finish_encodeQuad_of_lt

theorem bytesValue_lt (s : State) (j n : Nat) : bytesValue s j n < 256 ^ n := by
  induction n generalizing j with
  | zero => exact Nat.one_pos
  | succ n ih =>
    have hbyte : (s.windowByte j).toNat < 256 := (s.windowByte j).isLt
    have hrest := ih (j + 1)
    rw [bytesValue_succ, Nat.pow_succ]
    omega

/-- A payload as long as a 2-bit field says is in the compact range. -/
theorem bytesValue_le_compactMax (s : State) (j : Nat) {n : Nat} (hn : n ≤ 3) : bytesValue s j n ≤ 0xFFFFFF := by
  have hlt := bytesValue_lt s j n
  have hpow : 256 ^ n ≤ 256 ^ 3 := Nat.pow_le_pow_right (by decide) hn
  omega

theorem fieldsOf_le_three (h : Nat) :
    (fieldsOf h).s1 ≤ 3 ∧ (fieldsOf h).s2 ≤ 3 ∧ (fieldsOf h).s3 ≤ 3 ∧ (fieldsOf h).s4 ≤ 3 := by
  simp only [fieldsOf]
  omega

/-- Settles O47: the lengths are those of ROM_C at the first byte, each at most 3; each case of LEN is one of the bounds
checks. -/
theorem qdecCResult : Obligations.QdecCResult := by
  refine ⟨decode_encode (i := .qdecC) rfl, fun s htab => ?_⟩
  obtain ⟨h1, h2, h3, h4⟩ := fieldsOf_le_three (s.windowByte 0).toNat
  dsimp only
  refine ⟨State.finish_decodeQuad_of_empty, ?short, fun h => ⟨?whole, bytesValue_le_compactMax s _ h1,
    bytesValue_le_compactMax s _ h2, bytesValue_le_compactMax s _ h3, bytesValue_le_compactMax s _ h4⟩⟩
  case short =>
    rw [← romC_get_byte htab, ← quadSize_eq_quadTotal]
    exact State.finish_decodeQuad_of_short rfl
  case whole =>
    rw [← romC_get_byte htab, ← quadSize_eq_quadTotal] at h ⊢
    simp only [Quad.map, ← State.unpack_eq_bytesValue htab]
    exact (State.finish_decodeQuad_of_le rfl h).trans (congrArg _ (State.setResults_moved_complete_ok _ _ _))

/-! ### The round trip (44_quad_compact.md R159) -/

/-- QENC.C completes with OK only past both of its checks. -/
theorem exec_qencC_ok {s t : State} (h : exec .qencC s = .next t) (hok : t.status.code = .ok) :
    ∃ l, lensC s.operands = .ok l ∧ quadSize l ≤ s.lenA ∧
      t = { movedOk s (quadSize l) with mem := (s.storeBytes 0 (quadBytes (hdrC l) l s.operands)).mem } := by
  by_cases hrange : InCompactRange s
  · obtain ⟨l, hl⟩ := inCompactRange_iff.mp hrange
    rw [exec_qencC_of_lensC hl] at h
    rcases Nat.lt_or_ge s.lenA (quadSize l) with hlt | hle
    · rw [State.finish_encodeQuad_of_lt hlt] at h
      cases h
      exact absurd hok (by simp [raised])
    · rw [State.finish_encodeQuad_of_le hle] at h
      cases h
      exact ⟨l, hl, hle, rfl⟩
  · cases (State.finish_lensC_of_not_inCompactRange hrange).symm.trans h
    exact absurd hok (by simp [raised])

/-- After QENC.C and the host's rewind the window starts with the operands' quad. -/
theorem holdsQuad_rewind_qencC {s : State} {l : Quad Len} (hl : lensC s.operands = .ok l) (hle : quadSize l ≤ s.lenA) :
    (rewind s { movedOk s (quadSize l) with
      mem := (s.storeBytes 0 (quadBytes (hdrC l) l s.operands)).mem }).HoldsQuad (hdrC l) l s.operands := by
  obtain ⟨h0, h1, h2, h3⟩ := lensC_ok_iff.mp hl
  exact ⟨hle, State.storeBytes_windowBytes (quadBytes_length _ _ _) hle, fits_of_blenC_eq_some h0,
    fits_of_blenC_eq_some h1, fits_of_blenC_eq_some h2, fits_of_blenC_eq_some h3⟩

/-- Settles O49: QENC.C passed its checks, so after the rewind the window starts with the quad; the three sizes are one
number. -/
theorem compactQuadRoundTrip : Obligations.CompactQuadRoundTrip := by
  intro s t q htab ht hok hq
  obtain ⟨l, hl, hle, rfl⟩ := exec_qencC_ok ht hok
  rw [exec_qsizeC_of_lensC hl] at hq
  cases hq
  exact ⟨_, (holdsQuad_rewind_qencC hl hle).finish_decodeQuad htab (romC_get_hdrC hl htab), rfl, rfl, rfl, rfl, rfl,
    rfl, rfl⟩

end Sys2Proof.Machine
end

section
/-!
PROOFS. The byte packer and unpacker (45_le_packer.md R170 to R172): how LEPACK and LEUNPACK end, the round trip of the
two, and a quad's payloads as four packs or four unpacks, one after the other. Memory commands that follow each other
move along one window: `StandsAt` says where, `Wrote` with which bytes written so far, `Consumed` with memory untouched.
-/

namespace Sys2Proof

/-! ### Words that carry a byte count (30_encoding.md R71, R73, R74) -/

theorem encode_eq_ofNat (i : Instr) : encode i = BitVec.ofNat 32 (i.nb.toNat * 256 + i.opc.toNat) := by
  rw [← encode_toNat, BitVec.ofNat_toNat, BitVec.setWidth_eq]

theorem nb_le_four_of_wf {i : Instr} (h : i.wf = true) : i.nb.toNat ≤ 4 := by
  rcases wf_codes_iff.mp ⟨i, h, rfl, rfl⟩ with ⟨-, hn⟩ | ⟨-, hn⟩ <;> omega

theorem decode_encode_ne_ok {i : Instr} (h : 4 < i.nb.toNat) (j : Instr) : decode (encode i) ≠ .ok j := by
  intro hj
  obtain ⟨-, -, hnb, hwf⟩ := decode_fields hj
  rw [nbField_encode] at hnb
  exact absurd (nb_le_four_of_wf hwf) (by rw [← hnb]; omega)

end Sys2Proof

namespace Sys2Proof.Machine

open Sys2Proof.Statements

/-! ### The byte count (30_encoding.md R73) -/

theorem byteCount_of_le {nb : BitVec 3} (h : nb.toNat ≤ 4) : byteCount nb = .ok ⟨nb.toNat, by omega⟩ :=
  dif_pos _

theorem byteCount_of_gt {nb : BitVec 3} (h : 4 < nb.toNat) : byteCount nb = .error .illegalCommand :=
  dif_neg (by omega)

theorem byteCount_ofNat (n : Len) : byteCount (BitVec.ofNat 3 n.val) = .ok n := by
  revert n
  decide

/-! ### LEPACK (45_le_packer.md R170) -/

section
variable {nb : BitVec 3} {n : Len} {s : State}

/-- Past the byte count LEPACK is the check of the space, the store and the move. -/
theorem exec_lepack_of_byteCount (hn : byteCount nb = .ok n) :
    exec (.lepack nb) s =
      s.finish (do s.need n.val; .ok ((s.storeBytes 0 (leBytes n.val s.v0)).moved n.val)) := by
  rw [exec, execLepack, hn]
  rfl

theorem exec_lepack_of_le (hn : byteCount nb = .ok n) (h : n.val ≤ s.lenA) :
    exec (.lepack nb) s = .next { movedOk s n.val with mem := (s.storeBytes 0 (leBytes n.val s.v0)).mem } := by
  rw [← State.storeBytes_moved_complete_ok, exec_lepack_of_byteCount hn, State.need_of_le h]
  rfl

theorem exec_lepack_of_lt (hn : byteCount nb = .ok n) (h : s.lenA < n.val) :
    exec (.lepack nb) s = .next (raised s .insufficientBuffer) := by
  rw [← State.complete_error (by decide), exec_lepack_of_byteCount hn, State.need_of_lt h]
  rfl

theorem exec_lepack_of_gt (h : 4 < nb.toNat) : exec (.lepack nb) s = .next (raised s .illegalCommand) := by
  rw [← State.complete_error (by decide), exec, execLepack, byteCount_of_gt h]
  rfl

/-- LEPACK completes with OK only past both of its checks. -/
theorem exec_lepack_ok {t : State} (h : exec (.lepack nb) s = .next t) (hok : t.status.code = .ok) :
    ∃ n : Len, n.val = nb.toNat ∧ byteCount nb = .ok n ∧ n.val ≤ s.lenA := by
  rcases byteCount_cases nb with ⟨n, hval, hn⟩ | ⟨hgt, -⟩
  · refine ⟨n, hval, hn, Nat.le_of_not_lt fun hlt => ?_⟩
    cases (exec_lepack_of_lt hn hlt).symm.trans h
    cases hok
  · cases (exec_lepack_of_gt hgt).symm.trans h
    cases hok

end

/-- Settles O50: a count of at most 4 decodes, and its bytes are stored or the check of the space raises; a larger count
neither decodes nor passes as a byte count. -/
theorem lepackResult : Obligations.LepackResult := by
  intro nb s
  have hword : encode (.lepack nb) = BitVec.ofNat 32 (nb.toNat * 256 + 0x30) := encode_eq_ofNat _
  rw [← hword]
  refine ⟨fun h => ⟨decode_encode (i := .lepack nb) (decide_eq_true h), fun hle => ?room,
    exec_lepack_of_lt (byteCount_of_le h)⟩, fun h => ⟨decode_encode_ne_ok (i := .lepack nb) h, exec_lepack_of_gt h⟩⟩
  case room =>
    rw [← leBytes_eq_littleEndian]
    exact ⟨_, exec_lepack_of_le (byteCount_of_le h) hle, State.stored_storeBytes ((leBytes_length _ _).trans_le hle)⟩

/-! ### LEUNPACK (45_le_packer.md R171) -/

section
variable {nb : BitVec 3} {n : Len} {s : State}

/-- Past the byte count LEUNPACK is the check of the window, the read and the move. -/
theorem exec_leunpack_of_byteCount (hn : byteCount nb = .ok n) :
    exec (.leunpack nb) s =
      s.finish (do s.haveBytes n.val; .ok ((s.setR0 (s.unpack 0 n)).moved n.val)) := by
  rw [exec, execLeunpack, hn]
  rfl

theorem exec_leunpack_of_le (hn : byteCount nb = .ok n) (h : n.val ≤ s.lenA) :
    exec (.leunpack nb) s = .next { movedOk s n.val with r0 := s.unpack 0 n } := by
  rw [← State.setR0_moved_complete_ok, exec_leunpack_of_byteCount hn, State.haveBytes_of_le h]
  rfl

theorem exec_leunpack_of_empty (hn : byteCount nb = .ok n) (hpos : 0 < n.val) (h : s.lenA = 0) :
    exec (.leunpack nb) s = .next (raised s .insufficientBuffer) := by
  rw [← State.complete_error (by decide), exec_leunpack_of_byteCount hn, State.haveBytes_of_empty hpos h]
  rfl

theorem exec_leunpack_of_short (hn : byteCount nb = .ok n) (h0 : 0 < s.lenA) (h : s.lenA < n.val) :
    exec (.leunpack nb) s = .next (raised s .truncatedInput) := by
  rw [← State.complete_error (by decide), exec_leunpack_of_byteCount hn, State.haveBytes_of_short h0 h]
  rfl

theorem exec_leunpack_of_gt (h : 4 < nb.toNat) : exec (.leunpack nb) s = .next (raised s .illegalCommand) := by
  rw [← State.complete_error (by decide), exec, execLeunpack, byteCount_of_gt h]
  rfl

end

/-- Settles O51: a count of at most 4 decodes, and each case of LEN is one of the bounds checks; a larger count neither
decodes nor passes as a byte count. -/
theorem leunpackResult : Obligations.LeunpackResult := by
  intro nb s htab
  have hword : encode (.leunpack nb) = BitVec.ofNat 32 (nb.toNat * 256 + 0x31) := encode_eq_ofNat _
  rw [← hword]
  refine ⟨fun h => ⟨decode_encode (i := .leunpack nb) (decide_eq_true h), fun hle => ⟨?value, ?bound⟩,
    exec_leunpack_of_empty (byteCount_of_le h), exec_leunpack_of_short (byteCount_of_le h)⟩,
    fun h => ⟨decode_encode_ne_ok (i := .leunpack nb) h, exec_leunpack_of_gt h⟩⟩
  case value => rw [exec_leunpack_of_le (byteCount_of_le h) hle, State.unpack_eq_bytesValue htab]
  case bound =>
    rw [Nat.pow_mul]
    exact bytesValue_lt s 0 nb.toNat

/-! ### What was packed is unpacked -/

/-- The unpacker returns a value cut to the bytes of it that are in the window. -/
theorem State.unpack_toNat_of_leBytes {s : State} {j : Nat} {n : Len} {v : Word} (htab : s.tablesFixed)
    (hb : s.windowBytes j n.val = leBytes n.val v) : (s.unpack j n).toNat = v.toNat % 256 ^ n.val := by
  rw [State.unpack_eq_memRead htab, State.memRead, hb, leValue_leBytes _ _ (by omega)]

/-- Settles O52: after LEPACK and the host's rewind the window starts with the low bytes of V0. -/
theorem unpackReturnsWhatPackWrote : Obligations.UnpackReturnsWhatPackWrote := by
  intro nb s t htab h hok
  obtain ⟨n, hval, hn, hle⟩ := exec_lepack_ok h hok
  rw [exec_lepack_of_le hn hle] at h
  cases h
  refine ⟨_, exec_leunpack_of_le hn hle, rfl, ?_, rfl, rfl⟩
  rw [← hval]
  exact State.unpack_toNat_of_leBytes htab (State.storeBytes_windowBytes (leBytes_length _ _) hle)

/-! ### Memory commands one after the other (20_memory.md R58) -/

/-- `u` stands `c` bytes further on in the window of `s`. -/
structure State.StandsAt (s : State) (c : Nat) (u : State) : Prop where
  cfg : u.cfg = s.cfg
  cur : u.cur = BitVec.ofNat 32 (s.windowAddr c)
  len : u.len = BitVec.ofNat 32 (s.lenA - c)

/-- `u` stands past the bytes `bs`, which were stored from the start of the window of `s` on. -/
structure State.Wrote (s : State) (bs : List Byte) (u : State) : Prop extends s.StandsAt bs.length u where
  mem : u.mem = (s.storeBytes 0 bs).mem

/-- `u` stands past the first `c` bytes of the window of `s`, with memory and MASK as in `s`. -/
structure State.Consumed (s : State) (c : Nat) (u : State) : Prop extends s.StandsAt c u where
  mem : u.mem = s.mem
  maskRom : u.maskRom = s.maskRom

section
variable {s u p : State} {c d : Nat} {bs cs : List Byte}

theorem State.StandsAt.memSize (h : s.StandsAt c u) : u.memSize = s.memSize := by
  rw [State.memSize, h.cfg, State.memSize]

theorem State.StandsAt.curA (h : s.StandsAt c u) : u.curA = s.windowAddr c := by
  rw [← s.moved_curA, State.curA, h.cur, h.memSize]
  rfl

theorem State.StandsAt.lenA (h : s.StandsAt c u) : u.lenA = s.lenA - c := by
  rw [← s.moved_lenA, State.lenA, h.len, h.memSize]
  rfl

theorem State.StandsAt.windowAddr (h : s.StandsAt c u) (k : Nat) : u.windowAddr k = s.windowAddr (c + k) := by
  rw [← s.moved_windowAddr, State.windowAddr, h.curA, h.memSize, ← s.moved_curA]
  rfl

theorem State.StandsAt.trans (h : s.StandsAt c u) (h' : u.StandsAt d p) : s.StandsAt (c + d) p where
  cfg := h'.cfg.trans h.cfg
  cur := by rw [h'.cur, h.windowAddr]
  len := by rw [h'.len, h.lenA, Nat.sub_sub]

/-! ### Writes -/

/-- An encoder that ends with OK wrote its bytes. -/
theorem State.wrote_storeBytes {n : Nat} (hn : bs.length = n) :
    s.Wrote bs { movedOk s n with mem := (s.storeBytes 0 bs).mem } := by
  subst hn
  exact ⟨⟨rfl, rfl, rfl⟩, rfl⟩

theorem State.Wrote.trans (h : s.Wrote bs u) (h' : u.Wrote cs p) : s.Wrote (bs ++ cs) p where
  toStandsAt := List.length_append ▸ h.toStandsAt.trans h'.toStandsAt
  mem := by
    rw [h'.mem, State.storeBytes_append, State.storeBytes_mem, h.mem, h.memSize, h.curA, State.windowAddr,
      Memory.storeFrom_shift, Nat.add_comm bs.length]
    rfl

theorem State.Wrote.withV0 (h : s.Wrote bs u) (w : Word) : s.Wrote bs { u with v0 := w } :=
  ⟨⟨h.cfg, h.cur, h.len⟩, h.mem⟩

/-- LEPACK with room for it writes the low bytes of V0 after what was written before. -/
theorem State.Wrote.lepack {n : Len} (h : s.Wrote bs u) (hle : bs.length + n.val ≤ s.lenA)
    (hp : exec (.lepack (BitVec.ofNat 3 n.val)) u = .next p) :
    p.status.code = .ok ∧ s.Wrote (bs ++ leBytes n.val u.v0) p := by
  rw [exec_lepack_of_le (byteCount_ofNat n) (by rw [h.lenA]; omega)] at hp
  cases hp
  exact ⟨rfl, h.trans (State.wrote_storeBytes (leBytes_length _ _))⟩

/-! ### Reads -/

theorem State.Consumed.windowByte (h : s.Consumed c u) (k : Nat) : u.windowByte k = s.windowByte (c + k) := by
  rw [State.windowByte, h.windowAddr, h.mem, State.windowByte]

theorem State.Consumed.unpack (h : s.Consumed c u) (n : Len) : u.unpack 0 n = s.unpack c n := by
  rw [State.unpack, State.unpack, h.maskRom]
  exact congrArg (· &&& _) (State.memRead_congr fun i _ => by rw [Nat.zero_add]; exact h.windowByte i)

/-- LEUNPACK with enough of the window left returns the payload that comes next. -/
theorem State.Consumed.leunpack {n : Len} (h : s.Consumed c u) (hle : c + n.val ≤ s.lenA)
    (hp : exec (.leunpack (BitVec.ofNat 3 n.val)) u = .next p) :
    p.status.code = .ok ∧ p.r0 = s.unpack c n ∧ s.Consumed (c + n.val) p := by
  rw [exec_leunpack_of_le (byteCount_ofNat n) (by rw [h.lenA]; omega)] at hp
  cases hp
  exact ⟨rfl, h.unpack n, h.toStandsAt.trans ⟨rfl, rfl, rfl⟩, h.mem, h.maskRom⟩

end

/-! ### A quad's payloads are packs (45_le_packer.md R172) -/

section
variable {s t : State} {l : Quad Len}

/-- The encoders' common body completes with OK only past its check of the space. -/
theorem State.finish_encodeQuad_ok {b : Byte} (h : s.finish (s.encodeQuad b l) = .next t)
    (hok : t.status.code = .ok) : quadSize l ≤ s.lenA ∧ s.Wrote (quadBytes b l s.operands) t := by
  rcases Nat.lt_or_ge s.lenA (quadSize l) with hlt | hle
  · cases (State.finish_encodeQuad_of_lt hlt).symm.trans h
    cases hok
  · cases (State.finish_encodeQuad_of_le hle).symm.trans h
    exact ⟨hle, State.wrote_storeBytes (quadBytes_length _ _ _)⟩

/-- The decoders' common body completes with OK only past its checks of the window. -/
theorem State.finish_decodeQuad_ok {rom : Vector (Quad Len) 256} (hl : rom.get (s.windowByte 0).toFin = l)
    (h : s.finish (s.decodeQuad rom) = .next t) (hok : t.status.code = .ok) :
    quadSize l ≤ s.lenA ∧ t = ((s.setResults (s.unpackQuad l)).moved (quadSize l)).complete .ok := by
  rcases s.haveBytes_cases (quadSize l) with ⟨-, hle⟩ | ⟨-, h0⟩ | ⟨-, h0, hlt⟩
  · cases (State.finish_decodeQuad_of_le hl hle).symm.trans h
    exact ⟨hle, rfl⟩
  · cases (State.finish_decodeQuad_of_empty h0).symm.trans h
    cases hok
  · cases (State.finish_decodeQuad_of_short hl h0 hlt).symm.trans h
    cases hok

/-- Four LEPACK after the header write what a quad encoder of that header and those lengths writes. -/
theorem quadPayload_lepacks {b : Byte} {p1 p2 p3 p4 : State} (hle : quadSize l ≤ s.lenA)
    (ht : s.Wrote (quadBytes b l s.operands) t)
    (h1 : exec (.lepack (BitVec.ofNat 3 l.s1.val))
      { movedOk s 1 with mem := s.mem.write (s.windowAddr 0) b } = .next p1)
    (h2 : exec (.lepack (BitVec.ofNat 3 l.s2.val)) { p1 with v0 := s.v1 } = .next p2)
    (h3 : exec (.lepack (BitVec.ofNat 3 l.s3.val)) { p2 with v0 := s.v2 } = .next p3)
    (h4 : exec (.lepack (BitVec.ofNat 3 l.s4.val)) { p3 with v0 := s.v3 } = .next p4) :
    (∀ p ∈ [p1, p2, p3, p4], p.status.code = .ok) ∧ p4.mem = t.mem ∧ p4.cur = t.cur ∧ p4.len = t.len := by
  unfold quadSize at hle
  have hheader : s.Wrote [b] { movedOk s 1 with mem := s.mem.write (s.windowAddr 0) b } :=
    State.wrote_storeBytes rfl
  obtain ⟨ok1, w1⟩ := hheader.lepack (by simp; omega) h1
  obtain ⟨ok2, w2⟩ := (w1.withV0 s.v1).lepack (by simp; omega) h2
  obtain ⟨ok3, w3⟩ := (w2.withV0 s.v2).lepack (by simp; omega) h3
  obtain ⟨ok4, w4⟩ := (w3.withV0 s.v3).lepack (by simp; omega) h4
  have hwrote : s.Wrote (quadBytes b l s.operands) p4 := by
    simpa only [quadBytes, State.operands, movedOk, List.append_assoc, List.cons_append, List.nil_append] using w4
  exact ⟨by simp [ok1, ok2, ok3, ok4], hwrote.mem.trans ht.mem.symm, hwrote.cur.trans ht.cur.symm,
    hwrote.len.trans ht.len.symm⟩

/-- Four LEUNPACK after the header return what a quad decoder of those lengths returns. -/
theorem quadPayload_leunpacks {u1 u2 u3 u4 : State} (hle : quadSize l ≤ s.lenA)
    (ht : t = ((s.setResults (s.unpackQuad l)).moved (quadSize l)).complete .ok)
    (h1 : exec (.leunpack (BitVec.ofNat 3 l.s1.val)) (movedOk s 1) = .next u1)
    (h2 : exec (.leunpack (BitVec.ofNat 3 l.s2.val)) u1 = .next u2)
    (h3 : exec (.leunpack (BitVec.ofNat 3 l.s3.val)) u2 = .next u3)
    (h4 : exec (.leunpack (BitVec.ofNat 3 l.s4.val)) u3 = .next u4) :
    (∀ u ∈ [u1, u2, u3, u4], u.status.code = .ok) ∧
    u1.r0 = t.r0 ∧ u2.r0 = t.r1 ∧ u3.r0 = t.r2 ∧ u4.r0 = t.r3 ∧ u4.cur = t.cur ∧ u4.len = t.len := by
  subst ht
  unfold quadSize at hle
  have hheader : s.Consumed 1 (movedOk s 1) := ⟨⟨rfl, rfl, rfl⟩, rfl, rfl⟩
  obtain ⟨ok1, r1, c1⟩ := hheader.leunpack (by omega) h1
  obtain ⟨ok2, r2, c2⟩ := c1.leunpack (by omega) h2
  obtain ⟨ok3, r3, c3⟩ := c2.leunpack (by omega) h3
  obtain ⟨ok4, r4, c4⟩ := c3.leunpack (by omega) h4
  exact ⟨by simp [ok1, ok2, ok3, ok4], r1, r2, r3, r4, c4.cur, c4.len⟩

end

/-- Settles O53: of either scheme an encoder that ends with OK wrote the quad of its operands' lengths, and a decoder
read the quad of its table's lengths. -/
theorem quadPayloadsArePacks : Obligations.QuadPayloadsArePacks := by
  refine ⟨fun s t p1 p2 p3 p4 n h henc hok => ?writes, fun s t u1 u2 u3 u4 n htab hdec hok => ?reads⟩
  case writes =>
    rcases henc with ⟨ht, rfl, rfl⟩ | ⟨ht, rfl, rfl⟩
    · obtain ⟨hle, hwrote⟩ := State.finish_encodeQuad_ok ht hok
      rw [← hdrF_lensF_toNat, BitVec.ofNat_toNat, BitVec.setWidth_eq, ← lensF_operands_val]
      exact quadPayload_lepacks hle hwrote
    · obtain ⟨l, hl, hle, rfl⟩ := exec_qencC_ok ht hok
      rw [← hdrC_lensC_toNat hl, BitVec.ofNat_toNat, BitVec.setWidth_eq, ← lensC_operands_val hl]
      exact quadPayload_lepacks hle (State.wrote_storeBytes (quadBytes_length _ _ _))
  case reads =>
    rcases hdec with ⟨ht, rfl⟩ | ⟨ht, rfl⟩
    · obtain ⟨hle, hread⟩ := State.finish_decodeQuad_ok rfl ht hok
      rw [← romF_get_byte htab]
      exact quadPayload_leunpacks hle hread
    · obtain ⟨hle, hread⟩ := State.finish_decodeQuad_ok rfl ht hok
      rw [← romC_get_byte htab]
      exact quadPayload_leunpacks hle hread

end Sys2Proof.Machine
end

section
/-!
PROOFS. How commands and steps end (60_exceptions.md R200 to R210): every command is a body that is finished, and a
body raises a code only where the code has its cause; so no command stops the machine, an error writes STATUS alone,
and STICKY is cleared by reset or the host only.
-/

namespace Sys2Proof.Machine

open Sys2Proof.Statements

/-! ### The causes of the codes (60_exceptions.md R202, R204) -/

/-- What code `c` says of a command `i` that ends with it from `s`. -/
def Cause (i : Instr) (s : State) : Completion → Prop
  | .ok => True
  | .valueOutOfRange => i ∈ [.blenC, .qsizeC, .hencC, .qencC]
  | .truncatedInput => i.decodes = true ∧ 0 < s.lenA
  | .insufficientBuffer => i.encodes = true ∨ (i.decodes = true ∧ s.lenA = 0)
  | .illegalCommand => i.wf = false

/-- A part of a command's body raises only codes that have their cause. -/
def RaisesForCause (i : Instr) (s : State) {α : Type} (x : Except Completion α) : Prop :=
  ∀ e, x = .error e → Cause i s e

section
variable {i : Instr} {s : State}

theorem RaisesForCause.ok {α : Type} (a : α) : RaisesForCause i s (.ok a) := fun _ h => nomatch h

theorem RaisesForCause.error {α : Type} {c : Completion} (hc : Cause i s c) :
    RaisesForCause i s (.error c : Except Completion α) := by
  rintro e ⟨⟩
  exact hc

theorem RaisesForCause.bind {α β : Type} {x : Except Completion α} {f : α → Except Completion β}
    (hx : RaisesForCause i s x) (hf : ∀ a, RaisesForCause i s (f a)) : RaisesForCause i s (x >>= f) := by
  cases x with
  | ok a => exact hf a
  | error c => exact .error (hx c rfl)

/-! ### The parts of the bodies -/

theorem RaisesForCause.need (he : i.encodes = true) (n : Nat) : RaisesForCause i s (s.need n) := by
  rcases s.need_cases n with ⟨hk, -⟩ | ⟨hk, -⟩ <;> rw [hk]
  · exact .ok ()
  · exact .error (.inl he)

theorem RaisesForCause.haveBytes (hd : i.decodes = true) (n : Nat) : RaisesForCause i s (s.haveBytes n) := by
  rcases s.haveBytes_cases n with ⟨hk, -⟩ | ⟨hk, h0⟩ | ⟨hk, hpos, -⟩ <;> rw [hk]
  · exact .ok ()
  · exact .error (.inr ⟨hd, h0⟩)
  · exact .error ⟨hd, hpos⟩

theorem RaisesForCause.scan (hd : i.decodes = true) : RaisesForCause i s s.scan := by
  rcases s.scan_cases with ⟨n, -, hk⟩ | ⟨h0, hk⟩ | ⟨hpos, -, hk⟩ <;> rw [hk]
  · exact .ok _
  · exact .error (.inr ⟨hd, h0⟩)
  · exact .error ⟨hd, hpos⟩

theorem RaisesForCause.lensC (hi : i ∈ [.blenC, .qsizeC, .hencC, .qencC]) (v : Quad Word) :
    RaisesForCause i s (lensC v) := by
  rcases lensC_cases v with ⟨l, hl⟩ | hl <;> rw [hl]
  · exact .ok l
  · exact .error hi

theorem RaisesForCause.byteCount {nb : BitVec 3} (hwf : i.wf = decide (nb.toNat ≤ 4)) :
    RaisesForCause i s (byteCount nb) := by
  rcases byteCount_cases nb with ⟨n, -, hn⟩ | ⟨hgt, hn⟩ <;> rw [hn]
  · exact .ok n
  · exact .error (hwf.trans (decide_eq_false (by omega)))

theorem RaisesForCause.encodeQuad (he : i.encodes = true) (h : Byte) (l : Quad Len) :
    RaisesForCause i s (s.encodeQuad h l) := .bind (.need he _) fun _ => .ok _

theorem RaisesForCause.decodeQuad (hd : i.decodes = true) (rom : Vector (Quad Len) 256) :
    RaisesForCause i s (s.decodeQuad rom) :=
  .bind (.haveBytes hd _) fun _ => .bind (.haveBytes hd _) fun _ => .ok _

end

/-! ### Every command -/

/-- A command is a body that is finished, so it completes, and its body raises codes with their cause only. -/
theorem exec_eq_finish (i : Instr) (s : State) : ∃ body, exec i s = s.finish body ∧ RaisesForCause i s body := by
  cases i with
  | blenF => exact ⟨_, rfl, .ok _⟩
  | blenC =>
    refine ⟨_, rfl, ?_⟩
    cases blenC s.v0 with
    | some n => exact .ok _
    | none => exact .error (c := .valueOutOfRange) (by simp [Cause])
  | venc => exact ⟨_, rfl, .bind (.need rfl _) fun _ => .ok _⟩
  | vdec => exact ⟨_, rfl, .bind (.scan rfl) fun _ => .ok _⟩
  | vskip => exact ⟨_, rfl, .bind (.scan rfl) fun _ => .ok _⟩
  | qsizeF => exact ⟨_, rfl, .ok _⟩
  | hencF => exact ⟨_, rfl, .ok _⟩
  | hdecF => exact ⟨_, rfl, .ok _⟩
  | qencF => exact ⟨_, rfl, .encodeQuad rfl _ _⟩
  | qdecF => exact ⟨_, rfl, .decodeQuad rfl _⟩
  | qsizeC => exact ⟨_, rfl, .bind (.lensC (by simp) _) fun _ => .ok _⟩
  | hencC => exact ⟨_, rfl, .bind (.lensC (by simp) _) fun _ => .ok _⟩
  | hdecC => exact ⟨_, rfl, .ok _⟩
  | qencC => exact ⟨_, rfl, .bind (.lensC (by simp) _) fun _ => .encodeQuad rfl _ _⟩
  | qdecC => exact ⟨_, rfl, .decodeQuad rfl _⟩
  | lepack nb => exact ⟨_, rfl, .bind (.byteCount rfl) fun _ => .bind (.need rfl _) fun _ => .ok _⟩
  | leunpack nb => exact ⟨_, rfl, .bind (.byteCount rfl) fun _ => .bind (.haveBytes rfl _) fun _ => .ok _⟩

theorem exec_completes (i : Instr) (s : State) : ∃ t, exec i s = .next t := by
  obtain ⟨body, hbody, -⟩ := exec_eq_finish i s
  rw [hbody]
  exact s.finish_completes body

theorem exec_cause {i : Instr} {s t : State} {c : Completion} (h : exec i s = .next t) (hc : t.status.code = c) :
    Cause i s c := by
  subst hc
  obtain ⟨body, hbody, hcause⟩ := exec_eq_finish i s
  rcases State.finish_cases (hbody.symm.trans h) with ⟨u, -, rfl⟩ | ⟨e, he, rfl⟩
  · trivial
  · exact hcause e he

/-- An ill-formed command, which no word decodes to, ends with IllegalCommand (log 16). -/
theorem exec_of_not_wf {i : Instr} (h : i.wf = false) (s : State) : exec i s = .next (raised s .illegalCommand) := by
  cases i with
  | lepack nb => exact exec_lepack_of_gt (Nat.lt_of_not_le (of_decide_eq_false h))
  | leunpack nb => exact exec_leunpack_of_gt (Nat.lt_of_not_le (of_decide_eq_false h))
  | _ => cases h

/-- Settles O21: each code has its cause, and the ill-formed commands all raise IllegalCommand. -/
theorem codesHaveTheirCauses : Obligations.CodesHaveTheirCauses := by
  intro i s t h
  refine ⟨exec_cause h, exec_cause h, exec_cause h, exec_cause h, fun hwf => ?_⟩
  cases (exec_of_not_wf hwf s).symm.trans h
  rfl

/-- Settles O18: of the four effects a command can have, the one that raises alone leaves a code other than OK. -/
theorem errorsChangeOnlyStatus : Obligations.ErrorsChangeOnlyStatus := by
  intro i s
  obtain ⟨t, h⟩ := exec_completes i s
  refine ⟨t, h, fun hne => ?_⟩
  cases exec_effect h with
  | raises e he h => subst h; exact State.complete_error he
  | computes he hd r h => subst h; exact absurd rfl hne
  | encodes he bs hl h => subst h; exact absurd rfl hne
  | decodes hd r c hl h => subst h; exact absurd rfl hne

/-! ### STICKY (60_exceptions.md R203) -/

theorem exec_sticky {i : Instr} {s t : State} (h : exec i s = .next t) :
    t.status.sticky = (s.status.sticky || t.status.code != .ok) := congrArg Status.sticky (exec_status h)

theorem runCommand_keeps_sticky {w : Word} {s t : State} (h : runCommand w s = .next t)
    (hs : s.status.sticky = true) : t.status.sticky = true := by
  rcases runCommand_cases h with ⟨i, -, hi⟩ | rfl
  · rw [exec_sticky hi, hs, Bool.true_or]
  · rw [State.complete_status, Status.complete_sticky, hs, Bool.true_or]

/-- Only 0x04 writes STATUS (10_state.md R21, R23). -/
theorem State.writeReg_status (s : State) (offset : BitVec 8) (w : Word) :
    (s.writeReg offset w).status = s.status ∨
      (offset = 0x04 ∧ (s.writeReg offset w).status = s.status.hostWrite w) := by
  unfold State.writeReg
  split
  case h_1 h => exact .inr ⟨BitVec.eq_of_toNat_eq h, rfl⟩
  all_goals exact .inl rfl

theorem Status.hostWrite_clears {st : Status} {w : Word} (hs : st.sticky = true)
    (h : (st.hostWrite w).sticky = false) : w.getLsbD 8 = true := by
  simpa [Status.hostWrite, hs] using h

/-- Settles O19: a command only adds to STICKY, and of the host's accesses the reset and the write of STATUS alone can
clear it. -/
theorem stickyRecordsFailures : Obligations.StickyRecordsFailures := by
  refine ⟨fun i s t => exec_sticky, fun s t h hs ht => ?_⟩
  rcases step_cases h with ⟨-, rfl⟩ | ⟨a, rest, hp, ha⟩
  · cases hs.symm.trans ht
  refine ⟨rest, ?_⟩
  cases ha with
  | reads d h => subst h; cases hs.symm.trans ht
  | commands w ha h => cases (runCommand_keeps_sticky h hs).symm.trans ht
  | writesRegister offset w ha h =>
    subst ha h
    rcases State.writeReg_status { s with pending := rest } offset w with hst | ⟨rfl, hst⟩ <;> rw [hst] at ht
    · cases hs.symm.trans ht
    · exact .inr ⟨w, Status.hostWrite_clears hs ht, hp⟩
  | writesMemory address b ha hlt h => subst h; cases hs.symm.trans ht
  | resets ha h => exact .inl (ha ▸ hp)

/-! ### No command stops the machine (60_exceptions.md R200, R205, R206, R210) -/

theorem runCommand_completes (w : Word) (s : State) : ∃ t, runCommand w s = .next t := by
  unfold runCommand
  split
  case h_1 i hi => exact exec_completes i s
  case h_2 => exact ⟨_, rfl⟩

/-- A word write at an aligned offset, of CMD or of another register, is a step that completes. -/
theorem step_regWrite_completes {s : State} {offset : BitVec 8} {w : Word} {rest : List HostAccess}
    (h : s.pending = .regWrite .word offset w :: rest) (ha : offset.toNat % 4 = 0) : ∃ t, step s = .next t := by
  by_cases h0 : offset.toNat = 0
  · obtain rfl : offset = 0x00 := BitVec.eq_of_toNat_eq h0
    rw [step_command h]
    exact runCommand_completes w _
  · exact ⟨_, step_regWrite_word h ha h0⟩

theorem word_aligned_or_odd (size : AccessSize) (offset : BitVec 8) :
    (size = .word ∧ offset.toNat % 4 = 0) ∨ (size ≠ .word ∨ offset.toNat % 4 ≠ 0) := by
  tauto

/-- Settles O17: the step on each kind of access, on either side of its guard. -/
theorem stepsStopOnOddAccessesOnly : Obligations.StepsStopOnOddAccessesOnly := by
  intro s
  rcases hp : s.pending with _ | ⟨a, rest⟩
  case nil => exact .inl ⟨s, by simp only [step, hostStep, hp]⟩
  case cons =>
    cases a with
    | regRead size offset =>
      rcases word_aligned_or_odd size offset with ⟨rfl, ha⟩ | hodd
      · exact .inl ⟨_, step_regRead_word hp ha⟩
      · exact .inr (.inl ⟨size, offset, rest, hodd, .inl rfl⟩)
    | regWrite size offset w =>
      rcases word_aligned_or_odd size offset with ⟨rfl, ha⟩ | hodd
      · exact .inl (step_regWrite_completes hp ha)
      · exact .inr (.inl ⟨size, offset, rest, hodd, .inr ⟨w, rfl⟩⟩)
    | memRead address =>
      rcases Nat.lt_or_ge address s.memSize with hlt | hge
      · exact .inl ⟨_, step_memRead hp hlt rfl⟩
      · exact .inr (.inr ⟨address, rest, hge, .inl rfl⟩)
    | memWrite address b =>
      rcases Nat.lt_or_ge address s.memSize with hlt | hge
      · exact .inl ⟨_, step_memWrite hp hlt⟩
      · exact .inr (.inr ⟨address, rest, hge, .inr ⟨b, rfl⟩⟩)
    | reset => exact .inl ⟨_, step_of_pending hp⟩

end Sys2Proof.Machine
end

section
/-!
PROOFS. Reset and what follows it (70_reset_and_hazards.md R230 to R233): the idle step, the reset input, and memory
commands in an empty window, which the reset state has.
-/

namespace Sys2Proof.Machine

open Sys2Proof.Statements

/-! ### The step (70_reset_and_hazards.md R230, R231) -/

/-- Settles O6: the step without a pending access is the machine's idle branch. -/
theorem idleStepChangesNothing : Obligations.IdleStepChangesNothing := by
  intro s h
  simp only [step, hostStep, h]

/-- Settles O9: the step on the reset input clears the registers of the state without that access. -/
theorem resetInputClearsRegistersOnly : Obligations.ResetInputClearsRegistersOnly := by
  intro s rest h
  rw [step_of_pending h, hostAccess]
  rfl

/-! ### Memory commands in an empty window (20_memory.md R56, R57) -/

/-- A memory command that moves at least one byte finds no room, or no bytes, in an empty window. QENC.C comes that far
only with its values in range (44_quad_compact.md R150). -/
theorem exec_memory_of_empty {i : Instr} {s : State} (h0 : s.lenA = 0) (hwf : i.wf = true)
    (hmem : i.encodes = true ∨ i.decodes = true) (hrange : InCompactRange s)
    (hne : ¬ (i = .lepack 0 ∨ i = .leunpack 0)) : exec i s = .next (raised s .insufficientBuffer) := by
  have hlt : ∀ {n}, 0 < n → s.lenA < n := fun hn => h0 ▸ hn
  have hpos : ∀ {nb : BitVec 3}, nb ≠ 0 → 0 < nb.toNat := fun h => Nat.pos_of_ne_zero (BitVec.toNat_ne.mp h)
  cases i with
  | venc =>
    obtain ⟨hvlen, -⟩ := vlen_bounds s.v0
    exact exec_venc_of_lt (hlt hvlen)
  | vdec => rw [exec_vdec_of_scan_error (State.scan_of_empty h0), State.complete_error (by decide)]
  | vskip => rw [exec_vskip_of_scan_error (State.scan_of_empty h0), State.complete_error (by decide)]
  | qencF => exact exec_qencF_of_lt (hlt (quadSize_pos _))
  | qdecF => exact State.finish_decodeQuad_of_empty h0
  | qencC =>
    obtain ⟨l, hl⟩ := inCompactRange_iff.mp hrange
    rw [exec_qencC_of_lensC hl, State.finish_encodeQuad_of_lt (hlt (quadSize_pos l))]
  | qdecC => exact State.finish_decodeQuad_of_empty h0
  | lepack nb =>
    have hnb : nb ≠ 0 := fun h => hne (.inl (h ▸ rfl))
    exact exec_lepack_of_lt (byteCount_of_le (of_decide_eq_true hwf)) (hlt (hpos hnb))
  | leunpack nb =>
    have hnb : nb ≠ 0 := fun h => hne (.inr (h ▸ rfl))
    exact exec_leunpack_of_empty (byteCount_of_le (of_decide_eq_true hwf)) (hpos hnb) h0
  | _ => rcases hmem with h | h <;> cases h

/-- LEPACK 0 stores nothing and moves past nothing. -/
theorem exec_lepack_zero (s : State) : exec (.lepack 0) s = .next (movedOk s 0) :=
  exec_lepack_of_le (byteCount_ofNat 0) (Nat.zero_le _)

/-- LEUNPACK 0 reads nothing, which is 0, and moves past nothing. -/
theorem exec_leunpack_zero (s : State) : exec (.leunpack 0) s = .next { movedOk s 0 with r0 := 0 } := by
  have hcount : byteCount 0 = .ok 0 := byteCount_ofNat 0
  have hzero : s.unpack 0 0 = 0 := BitVec.zero_and
  rw [exec_leunpack_of_le hcount (Nat.zero_le _), hzero]
  rfl

/-! ### Straight after reset (70_reset_and_hazards.md R233) -/

theorem reset_lenA : State.reset.lenA = 0 := Nat.zero_mod _

theorem reset_inCompactRange : InCompactRange State.reset :=
  ⟨Nat.zero_le _, Nat.zero_le _, Nat.zero_le _, Nat.zero_le _⟩

/-- Moving past nothing with OK leaves the reset state as it was. -/
theorem movedOk_reset_zero : movedOk State.reset 0 = State.reset := rfl

/-- Settles O8: the window is empty and the operands are in range, so a command that moves a byte raises; the two of
byte count 0 move past nothing. -/
theorem memoryCommandsAfterReset : Obligations.MemoryCommandsAfterReset := by
  intro i hwf hmem
  split_ifs with hzero
  · rcases hzero with rfl | rfl
    · rw [exec_lepack_zero, movedOk_reset_zero]
    · rw [exec_leunpack_zero, movedOk_reset_zero]
      rfl
  · exact exec_memory_of_empty reset_lenA hwf hmem reset_inCompactRange hzero

end Sys2Proof.Machine
end

section
/-!
PROOFS. The opcode table (opcode_table.json, 30_encoding.md section 1): a row's mask keeps RES and OPC whole, and NB
whole or not at all, so which words a row accepts is said field by field; the rows' codes are distinct.
-/

namespace Sys2Proof

/-! ### Masks, field by field (30_encoding.md R70) -/

theorem opcField_and (w m : Word) : opcField (w &&& m) = opcField w &&& opcField m := BitVec.extractLsb'_and

theorem nbField_and (w m : Word) : nbField (w &&& m) = nbField w &&& nbField m := BitVec.extractLsb'_and

theorem resField_and (w m : Word) : resField (w &&& m) = resField w &&& resField m := BitVec.extractLsb'_and

theorem word_eq_iff_fields {w x : Word} :
    w = x ↔ resField w = resField x ∧ opcField w = opcField x ∧ nbField w = nbField x := by
  constructor
  · rintro rfl
    exact ⟨rfl, rfl, rfl⟩
  · rintro ⟨hr, ho, hn⟩
    exact word_eq_of_fields ho hn hr

/-! ### The fields of a row -/

theorem row_mask_fields (i : Instr) :
    resField i.row.mask = BitVec.allOnes 21 ∧ opcField i.row.mask = BitVec.allOnes 8 := by
  cases i <;> simp only [Instr.row] <;> decide

theorem row_pattern_fields (i : Instr) :
    resField i.row.pattern = 0 ∧ opcField i.row.pattern = i.opc ∧ nbField i.row.pattern = 0 := by
  cases i <;> simp only [Instr.row, Instr.opc] <;> decide

/-- The mask fixes NB only where the command carries no byte count. -/
theorem nb_and_row_mask (i : Instr) : i.nb &&& nbField i.row.mask = 0 := by
  have hpacker : ∀ nb : BitVec 3, nb &&& nbField 0xFFFFF8FF = 0 := by decide
  cases i with
  | lepack nb => exact hpacker nb
  | leunpack nb => exact hpacker nb
  | _ => rfl

/-- A row accepts the words of its code whose RES is zero, and whose NB is zero too where the mask fixes it. -/
theorem row_accepts_iff {i : Instr} {w : Word} :
    i.row.accepts w = true ↔ resField w = 0 ∧ opcField w = i.opc ∧ nbField w &&& nbField i.row.mask = 0 := by
  obtain ⟨hmr, hmo⟩ := row_mask_fields i
  obtain ⟨hpr, hpo, hpn⟩ := row_pattern_fields i
  rw [OpcodeRow.accepts, beq_iff_eq, word_eq_iff_fields, resField_and, opcField_and, nbField_and, hmr, hmo, hpr, hpo,
    hpn, BitVec.and_allOnes, BitVec.and_allOnes]

/-! ### Rows and codes (30_encoding.md R72) -/

theorem opcodeTable_codes_nodup : (opcodeTable.map fun r => opcField r.pattern).Nodup := by decide

/-- A code has one row. -/
theorem row_eq_of_opc_eq {i j : Instr} (h : i.opc = j.opc) : i.row = j.row := by
  obtain ⟨-, hi, -⟩ := row_pattern_fields i
  obtain ⟨-, hj, -⟩ := row_pattern_fields j
  exact List.inj_on_of_nodup_map opcodeTable_codes_nodup (row_mem_opcodeTable i) (row_mem_opcodeTable j)
    (hi.trans (h.trans hj.symm))

/-- Every byte count of at most 4 that a command's row leaves room for is that of a well-formed command of its code. -/
theorem exists_wf_of_opc_nb {j : Instr} {n : BitVec 3} (hmask : n &&& nbField j.row.mask = 0) (hle : n.toNat ≤ 4) :
    ∃ i : Instr, i.wf = true ∧ i.opc = j.opc ∧ i.nb = n := by
  have hplain : n &&& BitVec.allOnes 3 = 0 → n = 0 := fun h => BitVec.and_allOnes.symm.trans h
  cases j with
  | lepack nb => exact ⟨.lepack n, decide_eq_true hle, rfl, rfl⟩
  | leunpack nb => exact ⟨.leunpack n, decide_eq_true hle, rfl, rfl⟩
  | _ => exact ⟨_, rfl, rfl, (hplain hmask).symm⟩

/-- Settles O4: a word that decodes has the fields of its command, which the command's row accepts and no other row
has the code of; a word that a row accepts is the encoding of the row's command with the word's byte count. -/
theorem opcodeRowsAreUnambiguous : Obligations.OpcodeRowsAreUnambiguous := by
  refine ⟨fun w i j hdec => ?own, fun w j hacc hle => ?decodes⟩
  case own =>
    obtain ⟨hr, ho, hn, -⟩ := decode_fields hdec
    refine ⟨row_accepts_iff.mpr ⟨hr, ho, hn.symm ▸ nb_and_row_mask i⟩, fun hacc => ?_⟩
    obtain ⟨-, hoj, -⟩ := row_accepts_iff.mp hacc
    exact row_eq_of_opc_eq (hoj.symm.trans ho)
  case decodes =>
    obtain ⟨hr, ho, hmask⟩ := row_accepts_iff.mp hacc
    obtain ⟨i, hwf, hopc, hnb⟩ := exists_wf_of_opc_nb hmask hle
    have henc : encode i = w := encode_eq_iff.mpr ⟨hr, ho.trans hopc.symm, hnb.symm⟩
    exact ⟨i, (decodeInvertsEncode w i).mpr ⟨hwf, henc⟩, row_eq_of_opc_eq hopc⟩

end Sys2Proof
end
